-- ==== Sys2Proof/Word.lean ====
section
/-! DEFINITION. The widths of the core's values (spec/00_scope.md R6, R9, R10): every value is unsigned. -/

namespace Sys2Proof

/-- A memory cell or a general register: 8 bits (R6 `REG_WIDTH`, R38). -/
abbrev Byte := BitVec 8

/-- An instruction word: 16 bits (R6 `INSTR_WIDTH`, R59). -/
abbrev Word := BitVec 16

/-- A 12-bit address: PC, I, a stack slot, an address immediate (R6 `ADDR_WIDTH`). -/
abbrev Addr := BitVec 12

/-- A nibble (R8, R16): a family, a register index, a sub-opcode, a stack slot's index. -/
abbrev Nibble := BitVec 4

/-- A flag bit of the ALU (R105): 0 or 1. -/
abbrev Flag := BitVec 1

end Sys2Proof
end

