-- ==== Sys2Proof/Config.lean ====
section
/-! DEFINITION. What is fixed for one core: the constants of spec/00_scope.md R6 and the three decode options
of R7. The spec leaves no result of an instruction open, so there is no free value here. -/

namespace Sys2Proof

/-- `MEMORY_SIZE` of R6: addresses 0x000 to 0xFFF. -/
abbrev memorySize : Nat := 4096

/-- `PROGRAM_START` of R6: where LOAD begins and where PC points after RESET. -/
abbrev programStart : Addr := 0x200#12

/-- `FLAG_REG` of R6: register 15, `VF`. -/
abbrev flagReg : Nibble := 0xF#4

/-- `DELEGATED_MODE` of R7: what the model makes of a delegated word (R91, R92). -/
inductive DelegatedMode where
  /-- the word changes only PC, and the delegation notice is raised (the hardware, R91) -/
  | nop
  /-- the model refuses a STEP that reaches such a word (R92) -/
  | refuse
deriving DecidableEq, Repr

/-- The three configuration parameters of R7. -/
structure Params where
  /-- `STRICT_SKIP_REG_DECODE` (D5): 5XYn and 9XYn with n ≠ 0 are unrecognized -/
  strictSkipRegDecode : Bool
  /-- `ZERO_FAMILY_LOW_BYTE_DECODE` (D6): every 0XEE word is RETURN -/
  zeroFamilyLowByteDecode : Bool
  /-- `DELEGATED_MODE` (D9) -/
  delegatedMode : DelegatedMode
deriving DecidableEq, Repr

/-- The defaults of R7, "that this spec takes as the reference behaviour" (log 1). -/
def Params.reference : Params where
  strictSkipRegDecode := false
  zeroFamilyLowByteDecode := false
  delegatedMode := .nop

end Sys2Proof
end

