-- ==== Sys2Proof/Syntax.lean ====
section
/-! DEFINITION. The instructions: one constructor for each row of spec/opcode_table.json, in its order, and two
more for the tags UNRECOGNIZED that spec/30_encoding.md R65 gives under `STRICT_SKIP_REG_DECODE` and the table has
no row for (log 15). A constructor carries every bit its row does not fix, the ones the core ignores too, so that
an instruction is the whole of its word. -/

namespace Sys2Proof

inductive Instr where
  /-- RETURN `00EE` (R95). `x` is bits 11:8: 0, unless `ZERO_FAMILY_LOW_BYTE_DECODE` (D6) -/
  | ret (x : Nibble)
  /-- CLEAR `00E0` (R121), delegated to the display -/
  | clear
  /-- NOP0 `0000` (R122) -/
  | nop0
  /-- every other `0NNN` (R123) -/
  | unrecognized0NNN (nnn : Addr)
  /-- JUMP `1NNN` (R93) -/
  | jump (nnn : Addr)
  /-- CALL `2NNN` (R94) -/
  | call (nnn : Addr)
  /-- SKIP-IF-EQ `3XNN` (R97) -/
  | skipIfEq (x : Nibble) (nn : Byte)
  /-- SKIP-IF-NEQ `4XNN` (R98) -/
  | skipIfNeq (x : Nibble) (nn : Byte)
  /-- SKIP-IF-REG-EQ `5XYN` (R99); `n` is ignored -/
  | skipIfRegEq (x y n : Nibble)
  /-- LOAD-IMM `6XNN` (R107) -/
  | loadImm (x : Nibble) (nn : Byte)
  /-- ADD-IMM `7XNN` (R108) -/
  | addImm (x : Nibble) (nn : Byte)
  /-- COPY `8XY0` (R109) -/
  | copy (x y : Nibble)
  /-- OR `8XY1` (R110) -/
  | or (x y : Nibble)
  /-- AND `8XY2` (R111) -/
  | and (x y : Nibble)
  /-- XOR `8XY3` (R112) -/
  | xor (x y : Nibble)
  /-- ADD `8XY4` (R113) -/
  | add (x y : Nibble)
  /-- SUB `8XY5` (R114) -/
  | sub (x y : Nibble)
  /-- SHR `8XY6` (R115); `y` is decoded and not read -/
  | shr (x y : Nibble)
  /-- SUBN `8XY7` (R116) -/
  | subn (x y : Nibble)
  /-- SHL `8XY8` (R117); `y` is decoded and not read -/
  | shl (x y : Nibble)
  /-- unrecognized `8XY9` (R124) -/
  | unrecognized8XY9 (x y : Nibble)
  /-- unrecognized `8XYA` (R124) -/
  | unrecognized8XYA (x y : Nibble)
  /-- unrecognized `8XYB` (R124) -/
  | unrecognized8XYB (x y : Nibble)
  /-- unrecognized `8XYC` (R124) -/
  | unrecognized8XYC (x y : Nibble)
  /-- unrecognized `8XYD` (R124) -/
  | unrecognized8XYD (x y : Nibble)
  /-- unrecognized `8XYE` (R124), the canonical shift-left slot (D7) -/
  | unrecognized8XYE (x y : Nibble)
  /-- unrecognized `8XYF` (R124) -/
  | unrecognized8XYF (x y : Nibble)
  /-- SKIP-IF-REG-NEQ `9XYN` (R100); `n` is ignored -/
  | skipIfRegNeq (x y n : Nibble)
  /-- LOAD-I `ANNN` (R125) -/
  | loadI (nnn : Addr)
  /-- JUMP-OFFSET `BNNN` (R101) -/
  | jumpOffset (nnn : Addr)
  /-- DRAW-RANDOM `CXNN` (R126), delegated -/
  | drawRandom (x : Nibble) (nn : Byte)
  /-- DRAW-SPRITE `DXYN` (R126), delegated -/
  | drawSprite (x y n : Nibble)
  /-- KEY-SKIP-PRESSED `EX9E` (R126), delegated -/
  | keySkipPressed (x : Nibble)
  /-- KEY-SKIP-NOT-PRESSED `EXA1` (R126), delegated -/
  | keySkipNotPressed (x : Nibble)
  /-- every other `EXNN` (R126), delegated -/
  | delegatedEOther (x : Nibble) (nn : Byte)
  /-- TIMER-READ-DELAY `FX07` (R126), delegated -/
  | timerReadDelay (x : Nibble)
  /-- WAIT-KEY `FX0A` (R126, R130), delegated: it does not block -/
  | waitKey (x : Nibble)
  /-- TIMER-SET-DELAY `FX15` (R126), delegated -/
  | timerSetDelay (x : Nibble)
  /-- TIMER-SET-SOUND `FX18` (R126), delegated -/
  | timerSetSound (x : Nibble)
  /-- `FX1E` (R126), delegated -/
  | delegatedFX1E (x : Nibble)
  /-- `FX29` (R126), delegated -/
  | delegatedFX29 (x : Nibble)
  /-- `FX33` (R126), delegated -/
  | delegatedFX33 (x : Nibble)
  /-- `FX55` (R126), delegated -/
  | delegatedFX55 (x : Nibble)
  /-- `FX65` (R126), delegated -/
  | delegatedFX65 (x : Nibble)
  /-- every other `FXNN` (R126), delegated -/
  | delegatedFOther (x : Nibble) (nn : Byte)
  /-- UNRECOGNIZED(`5XYN`), `n ≠ 0`, under `STRICT_SKIP_REG_DECODE` (R65, R71) -/
  | unrecognized5XYN (x y n : Nibble)
  /-- UNRECOGNIZED(`9XYN`), `n ≠ 0`, under `STRICT_SKIP_REG_DECODE` (R65, R71) -/
  | unrecognized9XYN (x y n : Nibble)
deriving DecidableEq, Repr

end Sys2Proof
end

