-- ==== Sys2Proof/WellFormed.lean ====
section
/-! DEFINITION. Which instructions a core with parameters `p` can read from a word: the operand values for which a
row of spec/opcode_table.json is the FIRST that matches (its "Decode rule for the whole table"), under the options
of R7. Every operand is in its width by its type, so a constructor with no condition is well formed. -/

namespace Sys2Proof

/-- The low bytes that single out a row of family 0xE before its catch-all. -/
def namedLowBytesE : List Byte := [0x9E#8, 0xA1#8]

/-- The low bytes that single out a row of family 0xF before its catch-all. -/
def namedLowBytesF : List Byte :=
  [0x07#8, 0x0A#8, 0x15#8, 0x18#8, 0x1E#8, 0x29#8, 0x33#8, 0x55#8, 0x65#8]

/-- Some word decodes to `i` under `p`. -/
def Instr.wellFormed (p : Params) : Instr → Bool
  | .ret x => x == 0x0#4 || p.zeroFamilyLowByteDecode
  | .unrecognized0NNN nnn =>
      nnn != 0x000#12 && nnn != 0x0E0#12 && nnn != 0x0EE#12
        && !(p.zeroFamilyLowByteDecode && nnn.setWidth 8 == 0xEE#8)
  | .skipIfRegEq _ _ n | .skipIfRegNeq _ _ n => n == 0x0#4 || !p.strictSkipRegDecode
  | .unrecognized5XYN _ _ n | .unrecognized9XYN _ _ n => n != 0x0#4 && p.strictSkipRegDecode
  | .delegatedEOther _ nn => !namedLowBytesE.contains nn
  | .delegatedFOther _ nn => !namedLowBytesF.contains nn
  | .clear | .nop0 | .jump _ | .call _ | .skipIfEq _ _ | .skipIfNeq _ _ | .loadImm _ _ | .addImm _ _
  | .copy _ _ | .or _ _ | .and _ _ | .xor _ _ | .add _ _ | .sub _ _ | .shr _ _ | .subn _ _ | .shl _ _
  | .unrecognized8XY9 _ _ | .unrecognized8XYA _ _ | .unrecognized8XYB _ _ | .unrecognized8XYC _ _
  | .unrecognized8XYD _ _ | .unrecognized8XYE _ _ | .unrecognized8XYF _ _
  | .loadI _ | .jumpOffset _ | .drawRandom _ _ | .drawSprite _ _ _
  | .keySkipPressed _ | .keySkipNotPressed _ | .timerReadDelay _ | .waitKey _ | .timerSetDelay _
  | .timerSetSound _ | .delegatedFX1E _ | .delegatedFX29 _ | .delegatedFX33 _ | .delegatedFX55 _
  | .delegatedFX65 _ => true

end Sys2Proof
end

