-- ==== Sys2Proof/Decode.lean ====
section
/-! DEFINITION. The decoder of spec/30_encoding.md R65, total on every word, and after it the encoder, the opcode
table of spec/opcode_table.json as data, and the classes of words of R71 and R73. -/

namespace Sys2Proof

/-! ### Operand fields (R60, R61) -/

/-- `op = (word & 0xF000) >> 12`, the family. -/
def fieldOp (w : Word) : Nibble := w.extractLsb' 12 4

/-- `X = (word & 0x0F00) >> 8`. -/
def fieldX (w : Word) : Nibble := w.extractLsb' 8 4

/-- `Y = (word & 0x00F0) >> 4`. -/
def fieldY (w : Word) : Nibble := w.extractLsb' 4 4

/-- `N = word & 0x000F`. -/
def fieldN (w : Word) : Nibble := w.extractLsb' 0 4

/-- `NN = word & 0x00FF`. -/
def fieldNN (w : Word) : Byte := w.extractLsb' 0 8

/-- `NNN = word & 0x0FFF`. -/
def fieldNNN (w : Word) : Addr := w.extractLsb' 0 12

/-! ### The decoder (R65) -/

/-- Family 0x0, decided on the whole word (R68; D6 for the option). -/
def decodeFamily0 (p : Params) (w : Word) : Instr :=
  if w = 0x00EE#16 then .ret (fieldX w)
  else if p.zeroFamilyLowByteDecode = true ∧ fieldNN w = 0xEE#8 then .ret (fieldX w)
  else if w = 0x00E0#16 then .clear
  else if w = 0x0000#16 then .nop0
  else .unrecognized0NNN (fieldNNN w)

/-- Family 0x5 (D5 for the option). -/
def decodeFamily5 (p : Params) (w : Word) : Instr :=
  if fieldN w = 0x0#4 ∨ p.strictSkipRegDecode = false then .skipIfRegEq (fieldX w) (fieldY w) (fieldN w)
  else .unrecognized5XYN (fieldX w) (fieldY w) (fieldN w)

/-- Family 0x8, decided on the low nibble (R69, D7). -/
def decodeFamily8 (w : Word) : Instr :=
  let x := fieldX w
  let y := fieldY w
  match fieldN w with
  | 0x0#4 => .copy x y
  | 0x1#4 => .or x y
  | 0x2#4 => .and x y
  | 0x3#4 => .xor x y
  | 0x4#4 => .add x y
  | 0x5#4 => .sub x y
  | 0x6#4 => .shr x y
  | 0x7#4 => .subn x y
  | 0x8#4 => .shl x y
  | 0x9#4 => .unrecognized8XY9 x y
  | 0xA#4 => .unrecognized8XYA x y
  | 0xB#4 => .unrecognized8XYB x y
  | 0xC#4 => .unrecognized8XYC x y
  | 0xD#4 => .unrecognized8XYD x y
  | 0xE#4 => .unrecognized8XYE x y
  | _ => .unrecognized8XYF x y

/-- Family 0x9 (D5 for the option). -/
def decodeFamily9 (p : Params) (w : Word) : Instr :=
  if fieldN w = 0x0#4 ∨ p.strictSkipRegDecode = false then .skipIfRegNeq (fieldX w) (fieldY w) (fieldN w)
  else .unrecognized9XYN (fieldX w) (fieldY w) (fieldN w)

/-- Family 0xE: the whole of it is DELEGATED (R73); the rows of the table tell its words apart by the low byte. -/
def decodeFamilyE (w : Word) : Instr :=
  match fieldNN w with
  | 0x9E#8 => .keySkipPressed (fieldX w)
  | 0xA1#8 => .keySkipNotPressed (fieldX w)
  | nn => .delegatedEOther (fieldX w) nn

/-- Family 0xF: the whole of it is DELEGATED (R73); the rows of the table tell its words apart by the low byte. -/
def decodeFamilyF (w : Word) : Instr :=
  match fieldNN w with
  | 0x07#8 => .timerReadDelay (fieldX w)
  | 0x0A#8 => .waitKey (fieldX w)
  | 0x15#8 => .timerSetDelay (fieldX w)
  | 0x18#8 => .timerSetSound (fieldX w)
  | 0x1E#8 => .delegatedFX1E (fieldX w)
  | 0x29#8 => .delegatedFX29 (fieldX w)
  | 0x33#8 => .delegatedFX33 (fieldX w)
  | 0x55#8 => .delegatedFX55 (fieldX w)
  | 0x65#8 => .delegatedFX65 (fieldX w)
  | nn => .delegatedFOther (fieldX w) nn

/-- `decode(w)` of R65: a function of the word and the parameters of R7 and nothing else (R66). -/
def decodeWord (p : Params) (w : Word) : Instr :=
  match fieldOp w with
  | 0x0#4 => decodeFamily0 p w
  | 0x1#4 => .jump (fieldNNN w)
  | 0x2#4 => .call (fieldNNN w)
  | 0x3#4 => .skipIfEq (fieldX w) (fieldNN w)
  | 0x4#4 => .skipIfNeq (fieldX w) (fieldNN w)
  | 0x5#4 => decodeFamily5 p w
  | 0x6#4 => .loadImm (fieldX w) (fieldNN w)
  | 0x7#4 => .addImm (fieldX w) (fieldNN w)
  | 0x8#4 => decodeFamily8 w
  | 0x9#4 => decodeFamily9 p w
  | 0xA#4 => .loadI (fieldNNN w)
  | 0xB#4 => .jumpOffset (fieldNNN w)
  | 0xC#4 => .drawRandom (fieldX w) (fieldNN w)
  | 0xD#4 => .drawSprite (fieldX w) (fieldY w) (fieldN w)
  | 0xE#4 => decodeFamilyE w
  | _ => decodeFamilyF w

/-- A word of two bytes, the high byte first (R42): `(high << 8) | low`. -/
def wordOfBytes (high low : Byte) : Word := high ++ low

/-- Why a sequence of bytes holds no instruction. Every two bytes hold one (R59, R65), so there is one reason. -/
inductive DecodeError where
  /-- fewer than two bytes are left -/
  | truncated
deriving DecidableEq, Repr

/-- The instruction at the head of a sequence of bytes and the bytes after it (R42, R59). -/
def decodeBytes (p : Params) : List Byte → Except DecodeError (Instr × List Byte)
  | high :: low :: rest => .ok (decodeWord p (wordOfBytes high low), rest)
  | [_] | [] => .error .truncated

/-! ### The encoder -/

/-- Form A, and form Z of family 0: a family and a 12-bit field. -/
def wordA (op : Nibble) (nnn : Addr) : Word := op ++ nnn

/-- Form RI: a family, a register and a byte. -/
def wordRI (op x : Nibble) (nn : Byte) : Word := op ++ x ++ nn

/-- Form RR: a family, two registers and a low nibble. -/
def wordRR (op x y n : Nibble) : Word := op ++ x ++ y ++ n

/-- The word of an instruction (R60, R67, and the rows of spec/opcode_table.json). -/
def encode : Instr → Word
  | .ret x => wordRI 0x0 x 0xEE
  | .clear => 0x00E0
  | .nop0 => 0x0000
  | .unrecognized0NNN nnn => wordA 0x0 nnn
  | .jump nnn => wordA 0x1 nnn
  | .call nnn => wordA 0x2 nnn
  | .skipIfEq x nn => wordRI 0x3 x nn
  | .skipIfNeq x nn => wordRI 0x4 x nn
  | .skipIfRegEq x y n => wordRR 0x5 x y n
  | .loadImm x nn => wordRI 0x6 x nn
  | .addImm x nn => wordRI 0x7 x nn
  | .copy x y => wordRR 0x8 x y 0x0
  | .or x y => wordRR 0x8 x y 0x1
  | .and x y => wordRR 0x8 x y 0x2
  | .xor x y => wordRR 0x8 x y 0x3
  | .add x y => wordRR 0x8 x y 0x4
  | .sub x y => wordRR 0x8 x y 0x5
  | .shr x y => wordRR 0x8 x y 0x6
  | .subn x y => wordRR 0x8 x y 0x7
  | .shl x y => wordRR 0x8 x y 0x8
  | .unrecognized8XY9 x y => wordRR 0x8 x y 0x9
  | .unrecognized8XYA x y => wordRR 0x8 x y 0xA
  | .unrecognized8XYB x y => wordRR 0x8 x y 0xB
  | .unrecognized8XYC x y => wordRR 0x8 x y 0xC
  | .unrecognized8XYD x y => wordRR 0x8 x y 0xD
  | .unrecognized8XYE x y => wordRR 0x8 x y 0xE
  | .unrecognized8XYF x y => wordRR 0x8 x y 0xF
  | .skipIfRegNeq x y n => wordRR 0x9 x y n
  | .loadI nnn => wordA 0xA nnn
  | .jumpOffset nnn => wordA 0xB nnn
  | .drawRandom x nn => wordRI 0xC x nn
  | .drawSprite x y n => wordRR 0xD x y n
  | .keySkipPressed x => wordRI 0xE x 0x9E
  | .keySkipNotPressed x => wordRI 0xE x 0xA1
  | .delegatedEOther x nn => wordRI 0xE x nn
  | .timerReadDelay x => wordRI 0xF x 0x07
  | .waitKey x => wordRI 0xF x 0x0A
  | .timerSetDelay x => wordRI 0xF x 0x15
  | .timerSetSound x => wordRI 0xF x 0x18
  | .delegatedFX1E x => wordRI 0xF x 0x1E
  | .delegatedFX29 x => wordRI 0xF x 0x29
  | .delegatedFX33 x => wordRI 0xF x 0x33
  | .delegatedFX55 x => wordRI 0xF x 0x55
  | .delegatedFX65 x => wordRI 0xF x 0x65
  | .delegatedFOther x nn => wordRI 0xF x nn
  | .unrecognized5XYN x y n => wordRR 0x5 x y n
  | .unrecognized9XYN x y n => wordRR 0x9 x y n

/-- The two bytes of a word as memory holds them, the high byte at the lower address (R42). -/
def bytesOfWord (w : Word) : List Byte := [w.extractLsb' 8 8, w.extractLsb' 0 8]

/-- The bytes of an instruction as memory holds them. -/
def encodeBytes (i : Instr) : List Byte := bytesOfWord (encode i)

/-! ### Classes of words -/

/-- CLEAR and the families 0xC to 0xF (R73): the core only consumes them and raises the notice of R91. -/
def Instr.isDelegated : Instr → Bool
  | .clear | .drawRandom _ _ | .drawSprite _ _ _ | .keySkipPressed _ | .keySkipNotPressed _
  | .delegatedEOther _ _ | .timerReadDelay _ | .waitKey _ | .timerSetDelay _ | .timerSetSound _
  | .delegatedFX1E _ | .delegatedFX29 _ | .delegatedFX33 _ | .delegatedFX55 _ | .delegatedFX65 _
  | .delegatedFOther _ _ => true
  | .ret _ | .nop0 | .unrecognized0NNN _ | .jump _ | .call _ | .skipIfEq _ _ | .skipIfNeq _ _
  | .skipIfRegEq _ _ _ | .loadImm _ _ | .addImm _ _ | .copy _ _ | .or _ _ | .and _ _ | .xor _ _ | .add _ _
  | .sub _ _ | .shr _ _ | .subn _ _ | .shl _ _ | .unrecognized8XY9 _ _ | .unrecognized8XYA _ _
  | .unrecognized8XYB _ _ | .unrecognized8XYC _ _ | .unrecognized8XYD _ _ | .unrecognized8XYE _ _
  | .unrecognized8XYF _ _ | .skipIfRegNeq _ _ _ | .loadI _ | .jumpOffset _ | .unrecognized5XYN _ _ _
  | .unrecognized9XYN _ _ _ => false

/-- The tag UNRECOGNIZED of R65 (R71): a word that executes as a no-op and raises no notice. -/
def Instr.isUnrecognized : Instr → Bool
  | .unrecognized0NNN _ | .unrecognized8XY9 _ _ | .unrecognized8XYA _ _ | .unrecognized8XYB _ _
  | .unrecognized8XYC _ _ | .unrecognized8XYD _ _ | .unrecognized8XYE _ _ | .unrecognized8XYF _ _
  | .unrecognized5XYN _ _ _ | .unrecognized9XYN _ _ _ => true
  | .ret _ | .clear | .nop0 | .jump _ | .call _ | .skipIfEq _ _ | .skipIfNeq _ _ | .skipIfRegEq _ _ _
  | .loadImm _ _ | .addImm _ _ | .copy _ _ | .or _ _ | .and _ _ | .xor _ _ | .add _ _ | .sub _ _ | .shr _ _
  | .subn _ _ | .shl _ _ | .skipIfRegNeq _ _ _ | .loadI _ | .jumpOffset _ | .drawRandom _ _
  | .drawSprite _ _ _ | .keySkipPressed _ | .keySkipNotPressed _ | .delegatedEOther _ _
  | .timerReadDelay _ | .waitKey _ | .timerSetDelay _ | .timerSetSound _ | .delegatedFX1E _
  | .delegatedFX29 _ | .delegatedFX33 _ | .delegatedFX55 _ | .delegatedFX65 _ | .delegatedFOther _ _ => false

/-! ### The opcode table -/

/-- The row an instruction belongs to, by its mnemonic in spec/opcode_table.json. The two constructors that have no
row of their own bear the name of the row whose words they are (its note, D5). -/
def Instr.mnemonic : Instr → String
  | .ret _ => "RETURN"
  | .clear => "CLEAR"
  | .nop0 => "NOP0"
  | .unrecognized0NNN _ => "UNRECOGNIZED-0NNN"
  | .jump _ => "JUMP"
  | .call _ => "CALL"
  | .skipIfEq _ _ => "SKIP-IF-EQ"
  | .skipIfNeq _ _ => "SKIP-IF-NEQ"
  | .skipIfRegEq _ _ _ => "SKIP-IF-REG-EQ"
  | .loadImm _ _ => "LOAD-IMM"
  | .addImm _ _ => "ADD-IMM"
  | .copy _ _ => "COPY"
  | .or _ _ => "OR"
  | .and _ _ => "AND"
  | .xor _ _ => "XOR"
  | .add _ _ => "ADD"
  | .sub _ _ => "SUB"
  | .shr _ _ => "SHR"
  | .subn _ _ => "SUBN"
  | .shl _ _ => "SHL"
  | .unrecognized8XY9 _ _ => "UNRECOGNIZED-8XY9"
  | .unrecognized8XYA _ _ => "UNRECOGNIZED-8XYA"
  | .unrecognized8XYB _ _ => "UNRECOGNIZED-8XYB"
  | .unrecognized8XYC _ _ => "UNRECOGNIZED-8XYC"
  | .unrecognized8XYD _ _ => "UNRECOGNIZED-8XYD"
  | .unrecognized8XYE _ _ => "UNRECOGNIZED-8XYE"
  | .unrecognized8XYF _ _ => "UNRECOGNIZED-8XYF"
  | .skipIfRegNeq _ _ _ => "SKIP-IF-REG-NEQ"
  | .loadI _ => "LOAD-I"
  | .jumpOffset _ => "JUMP-OFFSET"
  | .drawRandom _ _ => "DRAW-RANDOM"
  | .drawSprite _ _ _ => "DRAW-SPRITE"
  | .keySkipPressed _ => "KEY-SKIP-PRESSED"
  | .keySkipNotPressed _ => "KEY-SKIP-NOT-PRESSED"
  | .delegatedEOther _ _ => "DELEGATED-E-OTHER"
  | .timerReadDelay _ => "TIMER-READ-DELAY"
  | .waitKey _ => "WAIT-KEY"
  | .timerSetDelay _ => "TIMER-SET-DELAY"
  | .timerSetSound _ => "TIMER-SET-SOUND"
  | .delegatedFX1E _ => "DELEGATED-FX1E"
  | .delegatedFX29 _ => "DELEGATED-FX29"
  | .delegatedFX33 _ => "DELEGATED-FX33"
  | .delegatedFX55 _ => "DELEGATED-FX55"
  | .delegatedFX65 _ => "DELEGATED-FX65"
  | .delegatedFOther _ _ => "DELEGATED-F-OTHER"
  | .unrecognized5XYN _ _ _ => "SKIP-IF-REG-EQ"
  | .unrecognized9XYN _ _ _ => "SKIP-IF-REG-NEQ"

/-- A row of spec/opcode_table.json: `(word & mask) == match` (its "Decode rule for the whole table"). -/
structure OpcodeRow where
  mnemonic : String
  pattern : Word
  mask : Word
deriving DecidableEq, Repr

/-- Rows 1 to 11: family 0x0 to 0x7. -/
def rowsOfFamilies0To7 : List OpcodeRow := [
  ⟨"RETURN", 0x00EE#16, 0xFFFF#16⟩,
  ⟨"CLEAR", 0x00E0#16, 0xFFFF#16⟩,
  ⟨"NOP0", 0x0000#16, 0xFFFF#16⟩,
  ⟨"UNRECOGNIZED-0NNN", 0x0000#16, 0xF000#16⟩,
  ⟨"JUMP", 0x1000#16, 0xF000#16⟩,
  ⟨"CALL", 0x2000#16, 0xF000#16⟩,
  ⟨"SKIP-IF-EQ", 0x3000#16, 0xF000#16⟩,
  ⟨"SKIP-IF-NEQ", 0x4000#16, 0xF000#16⟩,
  ⟨"SKIP-IF-REG-EQ", 0x5000#16, 0xF000#16⟩,
  ⟨"LOAD-IMM", 0x6000#16, 0xF000#16⟩,
  ⟨"ADD-IMM", 0x7000#16, 0xF000#16⟩]

/-- Rows 12 to 27: family 0x8. -/
def rowsOfFamily8 : List OpcodeRow := [
  ⟨"COPY", 0x8000#16, 0xF00F#16⟩,
  ⟨"OR", 0x8001#16, 0xF00F#16⟩,
  ⟨"AND", 0x8002#16, 0xF00F#16⟩,
  ⟨"XOR", 0x8003#16, 0xF00F#16⟩,
  ⟨"ADD", 0x8004#16, 0xF00F#16⟩,
  ⟨"SUB", 0x8005#16, 0xF00F#16⟩,
  ⟨"SHR", 0x8006#16, 0xF00F#16⟩,
  ⟨"SUBN", 0x8007#16, 0xF00F#16⟩,
  ⟨"SHL", 0x8008#16, 0xF00F#16⟩,
  ⟨"UNRECOGNIZED-8XY9", 0x8009#16, 0xF00F#16⟩,
  ⟨"UNRECOGNIZED-8XYA", 0x800A#16, 0xF00F#16⟩,
  ⟨"UNRECOGNIZED-8XYB", 0x800B#16, 0xF00F#16⟩,
  ⟨"UNRECOGNIZED-8XYC", 0x800C#16, 0xF00F#16⟩,
  ⟨"UNRECOGNIZED-8XYD", 0x800D#16, 0xF00F#16⟩,
  ⟨"UNRECOGNIZED-8XYE", 0x800E#16, 0xF00F#16⟩,
  ⟨"UNRECOGNIZED-8XYF", 0x800F#16, 0xF00F#16⟩]

/-- Rows 28 to 35: families 0x9 to 0xE. -/
def rowsOfFamilies9ToE : List OpcodeRow := [
  ⟨"SKIP-IF-REG-NEQ", 0x9000#16, 0xF000#16⟩,
  ⟨"LOAD-I", 0xA000#16, 0xF000#16⟩,
  ⟨"JUMP-OFFSET", 0xB000#16, 0xF000#16⟩,
  ⟨"DRAW-RANDOM", 0xC000#16, 0xF000#16⟩,
  ⟨"DRAW-SPRITE", 0xD000#16, 0xF000#16⟩,
  ⟨"KEY-SKIP-PRESSED", 0xE09E#16, 0xF0FF#16⟩,
  ⟨"KEY-SKIP-NOT-PRESSED", 0xE0A1#16, 0xF0FF#16⟩,
  ⟨"DELEGATED-E-OTHER", 0xE000#16, 0xF000#16⟩]

/-- Rows 36 to 45: family 0xF. -/
def rowsOfFamilyF : List OpcodeRow := [
  ⟨"TIMER-READ-DELAY", 0xF007#16, 0xF0FF#16⟩,
  ⟨"WAIT-KEY", 0xF00A#16, 0xF0FF#16⟩,
  ⟨"TIMER-SET-DELAY", 0xF015#16, 0xF0FF#16⟩,
  ⟨"TIMER-SET-SOUND", 0xF018#16, 0xF0FF#16⟩,
  ⟨"DELEGATED-FX1E", 0xF01E#16, 0xF0FF#16⟩,
  ⟨"DELEGATED-FX29", 0xF029#16, 0xF0FF#16⟩,
  ⟨"DELEGATED-FX33", 0xF033#16, 0xF0FF#16⟩,
  ⟨"DELEGATED-FX55", 0xF055#16, 0xF0FF#16⟩,
  ⟨"DELEGATED-FX65", 0xF065#16, 0xF0FF#16⟩,
  ⟨"DELEGATED-F-OTHER", 0xF000#16, 0xF000#16⟩]

/-- The whole table, in its order. -/
def opcodeRows : List OpcodeRow :=
  rowsOfFamilies0To7 ++ rowsOfFamily8 ++ rowsOfFamilies9ToE ++ rowsOfFamilyF

/-- "rows are tried in 'order'; the first row with (word & mask) == match gives the instruction". -/
def firstRow (w : Word) : Option OpcodeRow := opcodeRows.find? fun r => w &&& r.mask == r.pattern

/-! ### The host's view of the decoder -/

/-- The word of an instruction whose bits the opcode table numbers as `w`, of which it gives the low `nbits`; every
bit above is 0. -/
def tableWord (nbits w : Nat) : Word := BitVec.ofNat 16 (w % 2 ^ nbits)

/-- What the decoder reads, under the reference parameters, from the bytes of such a word as memory holds them. -/
def decodeTableWord (nbits w : Nat) : Option Instr :=
  match decodeBytes Params.reference (bytesOfWord (tableWord nbits w)) with
  | .ok (i, _) => some i
  | .error _ => none

end Sys2Proof
end

