-- ==== Sys2Proof/Machine/State.lean ====
section
/-! DEFINITION. The state of the core (the table at the head of spec/10_state.md, and the notice of
spec/40_sequencer.md R91), its value after RESET (R40, R147), and the reasons a step stops (R131, R92). -/

namespace Sys2Proof.Machine

/-- Memory: address and byte pairs, addresses strictly rising, none with the byte an unlisted address reads as
(`Memory.wf` in Ops.lean; log 12). -/
abbrev Memory := List Host.Cell

/-- Everything the spec gives the core. -/
structure State where
  /-- the general registers `V0` to `VF` (R20) -/
  v : Vector Byte 16
  /-- the program counter (R25) -/
  pc : Addr
  /-- the address register `I` (R32) -/
  i : Addr
  /-- the call stack's slots `STACK[0]` to `STACK[15]` (R34) -/
  stack : Vector Addr 16
  /-- `SP + 1`, the number of occupied slots, 0 to 16 (R34, R37; log 9) -/
  depth : Fin 17
  /-- the 4096 bytes of memory (R38) -/
  mem : Memory
  /-- the delegation notice: `some w` is `deleg_valid = 1` and `deleg_word = w`, `none` is `deleg_valid = 0`
  (R79, R91; log 7) -/
  notice : Option Word
deriving DecidableEq, Repr

/-- `SP` itself, an integer in -1..15, -1 when the stack is empty (R34). -/
def State.sp (s : State) : Int := (s.depth.val : Int) - 1

/-- The errors of R131: the operation ends, and the state is as before it (R133). -/
inductive Fault where
  /-- Raised by CALL with a full stack, `SP = 15` (R94). The spec's own error: safe. -/
  | stackOverflow
  /-- Raised by RETURN with an empty stack, `SP = -1` (R95). The spec's own error: safe. -/
  | stackUnderflow
  /-- Raised by the fetch at `PC = 0xFFF` (R81) and by a LOAD longer than 3584 bytes (R149). The spec's own
  error: safe. -/
  | outOfBounds
deriving DecidableEq, Repr

/-- What the model gives no next state for. -/
inductive Refusal where
  /-- Raised in `exec`'s arm of an instruction that has no meaning yet. Safe: no claim about it can be proved.
  No arm of this model does so. -/
  | notModelled (mnemonic : String)
  /-- Raised by the sequencer for a delegated word when `DELEGATED_MODE = refuse` (R84, R92); never under the
  reference parameters. Safe: the hardware goes on as with `nop`. -/
  | delegatedRefused (w : Word)
deriving DecidableEq, Repr

/-- The machine right after RESET (R40, R147). The notice is not among the values the spec states: no STEP has run,
so `deleg_valid` is 0 (DESIGN CHOICE, log 7). -/
def State.reset : State where
  v := Vector.replicate 16 0x00#8
  pc := programStart
  i := 0x000#12
  stack := Vector.replicate 16 0x000#12
  depth := 0
  mem := []
  notice := none

end Sys2Proof.Machine
end

