-- ==== Sys2Proof/Machine/Ops.lean ====
section
/-! DEFINITION. The operations every meaning is written over: memory, registers, PC, the call stack, raising an
error, fetching a word, and the delegation notice. -/

namespace Sys2Proof.Machine

/-- What a step or a meaning answers. -/
abbrev Answer := Host.Outcome State Fault Refusal

/-! ### Memory (R38, R42 to R50) -/

/-- What an address reads as that the list does not hold: the reset value of every byte (R40, R49). -/
def Memory.unlisted : Byte := 0x00#8

/-- The canonical form: addresses strictly rising and inside the 4096 bytes, no entry equal to `unlisted`. -/
abbrev Memory.wf (m : Memory) : Prop :=
  m.Pairwise (fun c d => c.1 < d.1) ∧ ∀ c ∈ m, c.1 < memorySize ∧ c.2 ≠ Memory.unlisted

/-- The byte a list of cells holds for the key `a`. -/
def Memory.lookup : Memory → Nat → Byte
  | [], _ => Memory.unlisted
  | (k, b) :: m, a => if k = a then b else Memory.lookup m a

/-- The list with key `a` holding `b`, in canonical form. -/
def Memory.insert : Memory → Nat → Byte → Memory
  | [], a, b => if b = Memory.unlisted then [] else [(a, b)]
  | (k, c) :: m, a, b =>
      if a < k then (if b = Memory.unlisted then (k, c) :: m else (a, b) :: (k, c) :: m)
      else if a = k then (if b = Memory.unlisted then m else (a, b) :: m)
      else (k, c) :: Memory.insert m a b

/-- `M[a]` (R11, R48: a read changes nothing). -/
def Memory.read (m : Memory) (a : Addr) : Byte := Memory.lookup m a.toNat

/-- `MemWrite(a, 1, b)` (R11). Its only caller in the core's operations is LOAD (R46). -/
def Memory.write (m : Memory) (a : Addr) (b : Byte) : Memory := Memory.insert m a.toNat b

/-- One byte an address, in input order, from `a` upward (R149). -/
def Memory.writeBytes (m : Memory) (a : Addr) : List Byte → Memory
  | [] => m
  | b :: bs => Memory.writeBytes (m.write a b) (a + 1) bs

/-- `MemRead(a, 2)` (R42): `(M[a] << 8) | M[a + 1]`. Fetch checks its bound before it calls this. -/
def Memory.readWord (m : Memory) (a : Addr) : Word := wordOfBytes (m.read a) (m.read (a + 1))

/-! ### Registers (R11, R20, R21) -/

/-- `V[r]`. -/
def State.reg (s : State) (r : Nibble) : Byte := s.v[r.toNat]'r.isLt

/-- `V[r] <- b`. No register is hardwired (R20). -/
def State.setReg (s : State) (r : Nibble) (b : Byte) : State := { s with v := s.v.set r.toNat b r.isLt }

/-- `V[0xF] <- f` where the ALU gives a flag, and nothing where it gives none (R105). -/
def State.setFlag (s : State) : Option Flag → State
  | none => s
  | some f => s.setReg flagReg (f.setWidth 8)

/-- `I <- a`. -/
def State.setI (s : State) (a : Addr) : State := { s with i := a }

/-- `PC <- a`. -/
def State.setPc (s : State) (a : Addr) : State := { s with pc := a }

/-- `STACK[k]`. -/
def State.slot (s : State) (k : Nibble) : Addr := s.stack[k.toNat]'k.isLt

/-- `M[a]`. -/
def State.byte (s : State) (a : Addr) : Byte := s.mem.read a

/-! ### The program counter (R27, R85, R96) -/

/-- `PCnext = (PC + 2) mod 0x1000` (R13; D4, log 2): PC has 12 bits, so the sum wraps. -/
def State.pcNext (s : State) : Addr := s.pc + 2#12

/-- `PC <- PCnext`, the default of every instruction (R85). -/
def State.advance (s : State) : State := s.setPc s.pcNext

/-- The PC effect of every skip (R96): `(PC + 4) mod 0x1000` when the condition holds, else `PCnext`. -/
def State.skipIf (s : State) (cond : Bool) : State := if cond then s.setPc (s.pc + 4#12) else s.advance

/-! ### Raising an error (R11, R131, R133, R138) -/

/-- `raise E`: the operation ends with the error. The core has no vector, saves nothing and changes nothing (R133,
R135, R138), and there is no return from an error (R139): the answer holds the error alone, and the state is the one
before the operation. -/
def raise (e : Fault) : Answer := .fault e

/-- The answer of an operation that may raise. -/
def answer : Except Fault State → Answer
  | .ok t => .next t
  | .error e => raise e

/-! ### The call stack (R34 to R36) -/

/-- `Push(a)`: the check before any write (R35). -/
def push (a : Addr) (s : State) : Except Fault State :=
  if h : s.depth.val < 16 then
    .ok { s with stack := s.stack.set s.depth.val a h, depth := ⟨s.depth.val + 1, Nat.succ_lt_succ h⟩ }
  else .error .stackOverflow

/-- `Pop()`: the check before any write (R35). The slot keeps its value (R36; D10, log 8). -/
def pop (s : State) : Except Fault (Addr × State) :=
  if h : 0 < s.depth.val then
    .ok (s.stack[s.depth.val - 1]'(by omega), { s with depth := ⟨s.depth.val - 1, by omega⟩ })
  else .error .stackUnderflow

/-! ### Fetch (R81) -/

/-- `Fetch()`: it fails when `PC + 1 > MEMORY_SIZE - 1`, before any state changes; it does not wrap (R45). -/
def fetch (s : State) : Except Fault Word :=
  if s.pc.toNat + 1 > memorySize - 1 then .error .outOfBounds else .ok (s.mem.readWord s.pc)

/-! ### The delegation notice (R91) -/

/-- `deleg_valid = 0`. -/
def State.clearNotice (s : State) : State := { s with notice := none }

/-- `deleg_valid = 1` and `deleg_word = w`. -/
def State.raiseNotice (s : State) (w : Word) : State := { s with notice := some w }

/-- What the core does of a delegated word (R91, R126, R127): the notice, and `PC <- PCnext`. -/
def State.delegate (s : State) (w : Word) : State := (s.raiseNotice w).advance

end Sys2Proof.Machine
end

