-- ==== Sys2Proof/Machine/Operands.lean ====
section
/-! DEFINITION. The operand forms of spec/30_encoding.md R62 as values: every immediate is unsigned and zero-extended
(R63), and every operand is read before any write (R12, R154). Forms Z and D have no operand. -/

namespace Sys2Proof.Machine

/-- Form RI: `V[X]` and the byte immediate `NN`, used as an 8-bit value (R63). -/
def operandsRI (x : Nibble) (nn : Byte) (s : State) : Byte × Byte := (s.reg x, nn)

/-- Form RR: `V[X]` and `V[Y]`; all 16 indices are legal in both fields, and equal ones too (R64). -/
def operandsRR (x y : Nibble) (s : State) : Byte × Byte := (s.reg x, s.reg y)

/-- Form A as a target or a value of I: `NNN` taken exactly as it is (R63, R102). -/
def operandA (nnn : Addr) : Addr := nnn

/-- Form A of JUMP-OFFSET: `(V[0] + NNN) mod 0x1000`, the register being always `V[0]` (R101). -/
def operandAPlusV0 (nnn : Addr) (s : State) : Addr := (s.reg 0x0#4).setWidth 12 + nnn

end Sys2Proof.Machine
end

