-- ==== Sys2Proof/Machine/Flags.lean ====
section
/-! DEFINITION. The ALU of spec/42_alu.md R105: a pure function of two bytes to a result and a flag bit or none. -/

namespace Sys2Proof.Machine

/-- The operations of R105. -/
inductive AluOp where
  | pass | addi | or | and | xor | add | sub | shr | subn | shl
deriving DecidableEq, Repr

/-- ADD's flag: `1 if a + b > 255 else 0`, of the exact sum (R106). -/
def carryFlag (a b : Byte) : Flag := BitVec.ofBool (decide (a.toNat + b.toNat > 255))

/-- SUB's and SUBN's flag: 1 exactly when the minuend is strictly greater, so 0 for equal operands (R106; C3, log 4). -/
def greaterFlag (minuend subtrahend : Byte) : Flag := BitVec.ofBool (decide (minuend.toNat > subtrahend.toNat))

/-- SHR's flag, the bit shifted out: `a & 1`. -/
def lowBitFlag (a : Byte) : Flag := a.extractLsb' 0 1

/-- SHL's flag, the bit shifted out: `(a >> 7) & 1`, as 0 or 1 (D8, log 5). -/
def highBitFlag (a : Byte) : Flag := a.extractLsb' 7 1

/-- `alu(op, a, b) -> (r, f)` (R105). A byte's `+`, `-` and `<<<` are modulo 256 (R106). -/
def alu : AluOp → Byte → Byte → Byte × Option Flag
  | .pass, _, b => (b, none)
  | .addi, a, b => (a + b, none)
  | .or, a, b => (a ||| b, none)
  | .and, a, b => (a &&& b, none)
  | .xor, a, b => (a ^^^ b, none)
  | .add, a, b => (a + b, some (carryFlag a b))
  | .sub, a, b => (a - b, some (greaterFlag a b))
  | .shr, a, _ => (a >>> 1, some (lowBitFlag a))
  | .subn, a, b => (b - a, some (greaterFlag b a))
  | .shl, a, _ => (a <<< 1, some (highBitFlag a))

/-- How every ALU instruction executes (R105): both operands read first, the result to `V[X]`, then the flag as the
last write, then `PC <- PCnext`. -/
def aluStep (op : AluOp) (x : Nibble) (ab : Byte × Byte) (s : State) : State :=
  let rf := alu op ab.1 ab.2
  ((s.setReg x rf.1).setFlag rf.2).advance

end Sys2Proof.Machine
end

