-- ==== Sys2Proof/Machine/Alu.lean ====
section
/-! DEFINITION. The arithmetic/logic family, spec/42_alu.md R105 to R120. -/

namespace Sys2Proof.Machine

/-- LOAD-IMM (R107): `V[X] <- NN`. -/
def execLoadImm (x : Nibble) (nn : Byte) (s : State) : Answer := .next (aluStep .pass x (operandsRI x nn s) s)

/-- ADD-IMM (R108): `V[X] <- (V[X] + NN) mod 256`, no flag. -/
def execAddImm (x : Nibble) (nn : Byte) (s : State) : Answer := .next (aluStep .addi x (operandsRI x nn s) s)

/-- COPY (R109): `V[X] <- V[Y]`. -/
def execCopy (x y : Nibble) (s : State) : Answer := .next (aluStep .pass x (operandsRR x y s) s)

/-- OR (R110). -/
def execOr (x y : Nibble) (s : State) : Answer := .next (aluStep .or x (operandsRR x y s) s)

/-- AND (R111). -/
def execAnd (x y : Nibble) (s : State) : Answer := .next (aluStep .and x (operandsRR x y s) s)

/-- XOR (R112). -/
def execXor (x y : Nibble) (s : State) : Answer := .next (aluStep .xor x (operandsRR x y s) s)

/-- ADD (R113), `VF <- carry`. -/
def execAdd (x y : Nibble) (s : State) : Answer := .next (aluStep .add x (operandsRR x y s) s)

/-- SUB (R114), `VF <- V[X] > V[Y]`. -/
def execSub (x y : Nibble) (s : State) : Answer := .next (aluStep .sub x (operandsRR x y s) s)

/-- SHR (R115): a shift of `V[X]`; `Y` is decoded and has no effect. -/
def execShr (x y : Nibble) (s : State) : Answer := .next (aluStep .shr x (operandsRR x y s) s)

/-- SUBN (R116), `VF <- V[Y] > V[X]`. -/
def execSubn (x y : Nibble) (s : State) : Answer := .next (aluStep .subn x (operandsRR x y s) s)

/-- SHL (R117): a shift of `V[X]`; `Y` is decoded and has no effect. -/
def execShl (x y : Nibble) (s : State) : Answer := .next (aluStep .shl x (operandsRR x y s) s)

end Sys2Proof.Machine
end

