-- ==== Sys2Proof/Machine/Control.lean ====
section
/-! DEFINITION. The control-flow family, spec/41_control_flow.md R93 to R104. -/

namespace Sys2Proof.Machine

/-- JUMP (R93): `PC <- NNN`, absolute. -/
def execJump (nnn : Addr) (s : State) : Answer := .next (s.setPc (operandA nnn))

/-- CALL (R94): `Push(PCnext)`, which may raise StackOverflow, then `PC <- NNN`. -/
def execCall (nnn : Addr) (s : State) : Answer :=
  answer ((push s.pcNext s).map fun t => t.setPc (operandA nnn))

/-- RETURN (R95): `PC <- Pop()`, which may raise StackUnderflow. Bits 11:8 of the word have no effect (D6). -/
def execReturn (_x : Nibble) (s : State) : Answer :=
  answer ((pop s).map fun r => r.2.setPc r.1)

/-- SKIP-IF-EQ (R97): `V[X] = NN`. -/
def execSkipIfEq (x : Nibble) (nn : Byte) (s : State) : Answer :=
  let ab := operandsRI x nn s
  .next (s.skipIf (ab.1 == ab.2))

/-- SKIP-IF-NEQ (R98): `V[X] != NN`. -/
def execSkipIfNeq (x : Nibble) (nn : Byte) (s : State) : Answer :=
  let ab := operandsRI x nn s
  .next (s.skipIf (ab.1 != ab.2))

/-- SKIP-IF-REG-EQ (R99): `V[X] = V[Y]`. The low nibble has no effect (D5). -/
def execSkipIfRegEq (x y _n : Nibble) (s : State) : Answer :=
  let ab := operandsRR x y s
  .next (s.skipIf (ab.1 == ab.2))

/-- SKIP-IF-REG-NEQ (R100): `V[X] != V[Y]`. The low nibble has no effect (D5). -/
def execSkipIfRegNeq (x y _n : Nibble) (s : State) : Answer :=
  let ab := operandsRR x y s
  .next (s.skipIf (ab.1 != ab.2))

/-- JUMP-OFFSET (R101): `PC <- (V[0] + NNN) mod 0x1000`, absolute. -/
def execJumpOffset (nnn : Addr) (s : State) : Answer := .next (s.setPc (operandAPlusV0 nnn s))

end Sys2Proof.Machine
end

