-- ==== Sys2Proof/Machine/Misc.lean ====
section
/-! DEFINITION. Index, no-op, unrecognized and delegated words, spec/43_misc_and_delegated.md R121 to R130. -/

namespace Sys2Proof.Machine

/-! ### Family 0x0 (R121 to R123) -/

/-- CLEAR (R121): delegated to the display. -/
def execClear (s : State) : Answer := .next (s.delegate (encode .clear))

/-- NOP0 (R122). -/
def execNop0 (s : State) : Answer := .next s.advance

/-- Unrecognized `0NNN` (R123): no operand is used. -/
def execUnrecognized0NNN (_nnn : Addr) (s : State) : Answer := .next s.advance

/-! ### Unrecognized words of family 0x8 (R124), and of 0x5 and 0x9 under STRICT_SKIP_REG_DECODE (R70, R71) -/

/-- Unrecognized `8XY9` (R124): no operand is used. -/
def execUnrecognized8XY9 (_x _y : Nibble) (s : State) : Answer := .next s.advance

/-- Unrecognized `8XYA` (R124): no operand is used. -/
def execUnrecognized8XYA (_x _y : Nibble) (s : State) : Answer := .next s.advance

/-- Unrecognized `8XYB` (R124): no operand is used. -/
def execUnrecognized8XYB (_x _y : Nibble) (s : State) : Answer := .next s.advance

/-- Unrecognized `8XYC` (R124): no operand is used. -/
def execUnrecognized8XYC (_x _y : Nibble) (s : State) : Answer := .next s.advance

/-- Unrecognized `8XYD` (R124): no operand is used. -/
def execUnrecognized8XYD (_x _y : Nibble) (s : State) : Answer := .next s.advance

/-- Unrecognized `8XYE` (R124): no operand is used. -/
def execUnrecognized8XYE (_x _y : Nibble) (s : State) : Answer := .next s.advance

/-- Unrecognized `8XYF` (R124): no operand is used. -/
def execUnrecognized8XYF (_x _y : Nibble) (s : State) : Answer := .next s.advance

/-- Unrecognized `5XYN` (R70): no operand is used. -/
def execUnrecognized5XYN (_x _y _n : Nibble) (s : State) : Answer := .next s.advance

/-- Unrecognized `9XYN` (R70): no operand is used. -/
def execUnrecognized9XYN (_x _y _n : Nibble) (s : State) : Answer := .next s.advance

/-! ### The address register (R125) -/

/-- LOAD-I (R125): `I <- NNN`. -/
def execLoadI (nnn : Addr) (s : State) : Answer := .next (s.setI (operandA nnn)).advance

/-! ### Delegated words of families 0xC to 0xF (R126, R127, R130): any effect beyond the notice and PC belongs to a
collaborator outside the core (log 6) -/

/-- DRAW-RANDOM (R126). -/
def execDrawRandom (x : Nibble) (nn : Byte) (s : State) : Answer := .next (s.delegate (encode (.drawRandom x nn)))

/-- DRAW-SPRITE (R126). -/
def execDrawSprite (x y n : Nibble) (s : State) : Answer := .next (s.delegate (encode (.drawSprite x y n)))

/-- KEY-SKIP-PRESSED (R126). -/
def execKeySkipPressed (x : Nibble) (s : State) : Answer := .next (s.delegate (encode (.keySkipPressed x)))

/-- KEY-SKIP-NOT-PRESSED (R126). -/
def execKeySkipNotPressed (x : Nibble) (s : State) : Answer := .next (s.delegate (encode (.keySkipNotPressed x)))

/-- DELEGATED-E-OTHER (R126). -/
def execDelegatedEOther (x : Nibble) (nn : Byte) (s : State) : Answer := .next (s.delegate (encode (.delegatedEOther x nn)))

/-- TIMER-READ-DELAY (R126). -/
def execTimerReadDelay (x : Nibble) (s : State) : Answer := .next (s.delegate (encode (.timerReadDelay x)))

/-- WAIT-KEY (R130: it does not block). -/
def execWaitKey (x : Nibble) (s : State) : Answer := .next (s.delegate (encode (.waitKey x)))

/-- TIMER-SET-DELAY (R126). -/
def execTimerSetDelay (x : Nibble) (s : State) : Answer := .next (s.delegate (encode (.timerSetDelay x)))

/-- TIMER-SET-SOUND (R126). -/
def execTimerSetSound (x : Nibble) (s : State) : Answer := .next (s.delegate (encode (.timerSetSound x)))

/-- DELEGATED-FX1E (R126). -/
def execDelegatedFX1E (x : Nibble) (s : State) : Answer := .next (s.delegate (encode (.delegatedFX1E x)))

/-- DELEGATED-FX29 (R126). -/
def execDelegatedFX29 (x : Nibble) (s : State) : Answer := .next (s.delegate (encode (.delegatedFX29 x)))

/-- DELEGATED-FX33 (R126). -/
def execDelegatedFX33 (x : Nibble) (s : State) : Answer := .next (s.delegate (encode (.delegatedFX33 x)))

/-- DELEGATED-FX55 (R126). -/
def execDelegatedFX55 (x : Nibble) (s : State) : Answer := .next (s.delegate (encode (.delegatedFX55 x)))

/-- DELEGATED-FX65 (R126). -/
def execDelegatedFX65 (x : Nibble) (s : State) : Answer := .next (s.delegate (encode (.delegatedFX65 x)))

/-- DELEGATED-F-OTHER (R126). -/
def execDelegatedFOther (x : Nibble) (nn : Byte) (s : State) : Answer := .next (s.delegate (encode (.delegatedFOther x nn)))

end Sys2Proof.Machine
end

