-- ==== Sys2Proof/Machine/Dispatch.lean ====
section
/-! DEFINITION. The execution unit: "a pure dispatch over the decoded opcode tag" (spec/40_sequencer.md R83). -/

namespace Sys2Proof.Machine

def exec (i : Instr) (s : State) : Host.Outcome State Fault Refusal :=
  match i with
  | .ret x => Sys2Proof.Machine.execReturn x s
  | .clear => Sys2Proof.Machine.execClear s
  | .nop0 => Sys2Proof.Machine.execNop0 s
  | .unrecognized0NNN nnn => Sys2Proof.Machine.execUnrecognized0NNN nnn s
  | .jump nnn => Sys2Proof.Machine.execJump nnn s
  | .call nnn => Sys2Proof.Machine.execCall nnn s
  | .skipIfEq x nn => Sys2Proof.Machine.execSkipIfEq x nn s
  | .skipIfNeq x nn => Sys2Proof.Machine.execSkipIfNeq x nn s
  | .skipIfRegEq x y n => Sys2Proof.Machine.execSkipIfRegEq x y n s
  | .loadImm x nn => Sys2Proof.Machine.execLoadImm x nn s
  | .addImm x nn => Sys2Proof.Machine.execAddImm x nn s
  | .copy x y => Sys2Proof.Machine.execCopy x y s
  | .or x y => Sys2Proof.Machine.execOr x y s
  | .and x y => Sys2Proof.Machine.execAnd x y s
  | .xor x y => Sys2Proof.Machine.execXor x y s
  | .add x y => Sys2Proof.Machine.execAdd x y s
  | .sub x y => Sys2Proof.Machine.execSub x y s
  | .shr x y => Sys2Proof.Machine.execShr x y s
  | .subn x y => Sys2Proof.Machine.execSubn x y s
  | .shl x y => Sys2Proof.Machine.execShl x y s
  | .unrecognized8XY9 x y => Sys2Proof.Machine.execUnrecognized8XY9 x y s
  | .unrecognized8XYA x y => Sys2Proof.Machine.execUnrecognized8XYA x y s
  | .unrecognized8XYB x y => Sys2Proof.Machine.execUnrecognized8XYB x y s
  | .unrecognized8XYC x y => Sys2Proof.Machine.execUnrecognized8XYC x y s
  | .unrecognized8XYD x y => Sys2Proof.Machine.execUnrecognized8XYD x y s
  | .unrecognized8XYE x y => Sys2Proof.Machine.execUnrecognized8XYE x y s
  | .unrecognized8XYF x y => Sys2Proof.Machine.execUnrecognized8XYF x y s
  | .skipIfRegNeq x y n => Sys2Proof.Machine.execSkipIfRegNeq x y n s
  | .loadI nnn => Sys2Proof.Machine.execLoadI nnn s
  | .jumpOffset nnn => Sys2Proof.Machine.execJumpOffset nnn s
  | .drawRandom x nn => Sys2Proof.Machine.execDrawRandom x nn s
  | .drawSprite x y n => Sys2Proof.Machine.execDrawSprite x y n s
  | .keySkipPressed x => Sys2Proof.Machine.execKeySkipPressed x s
  | .keySkipNotPressed x => Sys2Proof.Machine.execKeySkipNotPressed x s
  | .delegatedEOther x nn => Sys2Proof.Machine.execDelegatedEOther x nn s
  | .timerReadDelay x => Sys2Proof.Machine.execTimerReadDelay x s
  | .waitKey x => Sys2Proof.Machine.execWaitKey x s
  | .timerSetDelay x => Sys2Proof.Machine.execTimerSetDelay x s
  | .timerSetSound x => Sys2Proof.Machine.execTimerSetSound x s
  | .delegatedFX1E x => Sys2Proof.Machine.execDelegatedFX1E x s
  | .delegatedFX29 x => Sys2Proof.Machine.execDelegatedFX29 x s
  | .delegatedFX33 x => Sys2Proof.Machine.execDelegatedFX33 x s
  | .delegatedFX55 x => Sys2Proof.Machine.execDelegatedFX55 x s
  | .delegatedFX65 x => Sys2Proof.Machine.execDelegatedFX65 x s
  | .delegatedFOther x nn => Sys2Proof.Machine.execDelegatedFOther x nn s
  | .unrecognized5XYN x y n => Sys2Proof.Machine.execUnrecognized5XYN x y n s
  | .unrecognized9XYN x y n => Sys2Proof.Machine.execUnrecognized9XYN x y n s

end Sys2Proof.Machine
end

