-- ==== Sys2Proof/Machine/Sequencer.lean ====
section
/-! DEFINITION. The fetch-decode-execute sequencer, spec/40_sequencer.md R81 to R92. -/

namespace Sys2Proof.Machine

/-- `DELEGATED_MODE = refuse and t is CLEAR or DELEGATED(w)` (R84, R92). -/
def refuses (p : Params) (i : Instr) : Bool := p.delegatedMode == .refuse && i.isDelegated

/-- One STEP of a core with parameters `p` (R84): fetch, decode, execute. The notice is of the last STEP alone (R91),
so it is dropped before the instruction runs. A delegated word raises no error, so whether it is refused before or
after it runs is the same. -/
def stepWith (p : Params) (s : State) : Answer :=
  match fetch s with
  | .error e => raise e
  | .ok w =>
      if refuses p (decodeWord p w) then .refused (.delegatedRefused w)
      else exec (decodeWord p w) s.clearNotice

/-- `s` with the two bytes of `w` at PC and PC + 1. At `PC = 0xFFF` no instruction can be fetched (R81), so nothing
is placed (log 11). -/
def placeAtPc (s : State) (w : Word) : State :=
  if s.pc = 0xFFF#12 then s else { s with mem := s.mem.writeBytes s.pc (bytesOfWord w) }

end Sys2Proof.Machine
end

