-- ==== Sys2Proof/Machine/Step.lean ====
section
/-! DEFINITION. The step of the core under the reference parameters of spec/00_scope.md R7 (log 1), and the host's way
to place the next instruction. -/

namespace Sys2Proof.Machine

/-- One STEP (R84) under the defaults of R7. -/
def step (s : State) : Host.Outcome State Fault Refusal := stepWith Params.reference s

/-- `s` with an instruction, as spec/opcode_table.json numbers its bits, where the next fetch reads it (log 11). -/
def State.withFetchWord (s : State) (nbits w : Nat) : State := placeAtPc s (tableWord nbits w)

end Sys2Proof.Machine
end

