-- ==== Sys2Proof/Machine/Assembler.lean ====
section
/-! DEFINITION. The assembly text of spec/30_encoding.md R74 (D19; its lexical details, log 19): one line to one
word. -/

namespace Sys2Proof.Machine

/-- The value of a decimal digit. -/
def decimalDigit (c : Char) : Option Nat :=
  if '0'.toNat ≤ c.toNat ∧ c.toNat ≤ '9'.toNat then some (c.toNat - '0'.toNat) else none

/-- The value of a hexadecimal digit in capitals, as in a register's name. -/
def capitalHexDigit (c : Char) : Option Nat :=
  if 'A'.toNat ≤ c.toNat ∧ c.toNat ≤ 'F'.toNat then some (c.toNat - 'A'.toNat + 10) else decimalDigit c

/-- The value of a hexadecimal digit. -/
def hexDigit (c : Char) : Option Nat :=
  if 'a'.toNat ≤ c.toNat ∧ c.toNat ≤ 'f'.toNat then some (c.toNat - 'a'.toNat + 10) else capitalHexDigit c

/-- The number a non-empty run of digits spells. -/
def numeral (base : Nat) (digit : Char → Option Nat) : List Char → Option Nat
  | [] => none
  | c :: cs => (c :: cs).foldlM (fun acc d => (digit d).map (acc * base + ·)) 0

/-- "Immediates are hexadecimal `0x..` or decimal", within the field's width. -/
def immediate (width : Nat) (cs : List Char) : Option (BitVec width) := do
  let v ← match cs with
    | '0' :: 'x' :: ds => numeral 16 hexDigit ds
    | ds => numeral 10 decimalDigit ds
  if v < 2 ^ width then some (BitVec.ofNat width v) else none

/-- "Registers are `V0`–`VF`". -/
def register : List Char → Option Nibble
  | ['V', c] => (capitalHexDigit c).map (BitVec.ofNat 4 ·)
  | _ => none

/-- The text with no space at either end. -/
def trimSpaces (cs : List Char) : List Char :=
  ((cs.dropWhile (· == ' ')).reverse.dropWhile (· == ' ')).reverse

/-- The pieces of a text between commas. -/
def splitCommas : List Char → List (List Char)
  | [] => [[]]
  | c :: cs =>
      if c = ',' then [] :: splitCommas cs
      else
        match splitCommas cs with
        | [] => [[c]]
        | piece :: pieces => (c :: piece) :: pieces

/-- "Operands are separated by a comma." -/
def operandTexts (cs : List Char) : List (List Char) :=
  if trimSpaces cs = [] then [] else (splitCommas cs).map trimSpaces

/-- `Vx, nn`. -/
def assembleRI (op : Nibble) (a b : List Char) : Option Word := do
  return wordRI op (← register a) (← immediate 8 b)

/-- `Vx, Vy`. -/
def assembleRR (op n : Nibble) (a b : List Char) : Option Word := do
  return wordRR op (← register a) (← register b) n

/-- `Vx` alone, `y = 0` when omitted. -/
def assembleR (op n : Nibble) (a : List Char) : Option Word := do
  return wordRR op (← register a) 0x0 n

/-- `nnn`. -/
def assembleA (op : Nibble) (a : List Char) : Option Word := do
  return wordA op (← immediate 12 a)

/-- The table of R74: a name and its operands to a word. -/
def assembleNamed (name : String) (ops : List (List Char)) : Option Word :=
  match name, ops with
  | "RETURN", [] => some 0x00EE#16
  | "CLEAR", [] => some 0x00E0#16
  | "NOP0", [] => some 0x0000#16
  | "JUMP", [a] => assembleA 0x1 a
  | "CALL", [a] => assembleA 0x2 a
  | "SKIP-IF-EQ", [a, b] => assembleRI 0x3 a b
  | "SKIP-IF-NEQ", [a, b] => assembleRI 0x4 a b
  | "SKIP-IF-REG-EQ", [a, b] => assembleRR 0x5 0x0 a b
  | "LOAD-IMM", [a, b] => assembleRI 0x6 a b
  | "LOAD", [a, b] => assembleRI 0x6 a b
  | "ADD-IMM", [a, b] => assembleRI 0x7 a b
  | "COPY", [a, b] => assembleRR 0x8 0x0 a b
  | "OR", [a, b] => assembleRR 0x8 0x1 a b
  | "AND", [a, b] => assembleRR 0x8 0x2 a b
  | "XOR", [a, b] => assembleRR 0x8 0x3 a b
  | "ADD", [a, b] => assembleRR 0x8 0x4 a b
  | "SUB", [a, b] => assembleRR 0x8 0x5 a b
  | "SHR", [a] => assembleR 0x8 0x6 a
  | "SHR", [a, b] => assembleRR 0x8 0x6 a b
  | "SUBN", [a, b] => assembleRR 0x8 0x7 a b
  | "SHL", [a] => assembleR 0x8 0x8 a
  | "SHL", [a, b] => assembleRR 0x8 0x8 a b
  | "SKIP-IF-REG-NEQ", [a, b] => assembleRR 0x9 0x0 a b
  | "LOAD-I", [a] => assembleA 0xA a
  | "JUMP-OFFSET", [a] => assembleA 0xB a
  | ".word", [a] => immediate 16 a
  | _, _ => none

/-- One line of assembly text. -/
def assembleLine (line : String) : Option Word :=
  let cs := trimSpaces line.toList
  assembleNamed (String.ofList (cs.takeWhile (· != ' '))) (operandTexts (cs.dropWhile (· != ' ')))

/-- Lines in order to the bytes LOAD takes, each word high byte first (R42, R74). -/
def assemble : List String → Option (List Byte)
  | [] => some []
  | line :: lines => do
      let w ← assembleLine line
      let bytes ← assemble lines
      return bytesOfWord w ++ bytes

end Sys2Proof.Machine
end

