-- ==== Sys2Proof/Machine/Interface.lean ====
section
/-! DEFINITION. The four host operations of spec/40_sequencer.md R76, each a transaction (R77), with the results of R78
and the signals of R79; RESET and LOAD as spec/70_reset_and_hazards.md R147 and R149 say. -/

namespace Sys2Proof.Machine

/-! ### Results (R78) -/

/-- The outcome of a RESET, LOAD or STEP. -/
inductive Result where
  | ok | stackOverflow | stackUnderflow | outOfBounds
deriving DecidableEq, Repr

/-- The 2-bit code on the `result` output (R78, D2). -/
def Result.code : Result → BitVec 2
  | .ok => 0b00#2
  | .stackOverflow => 0b01#2
  | .stackUnderflow => 0b10#2
  | .outOfBounds => 0b11#2

/-- The result that surfaces an error (R131). -/
def Result.ofFault : Fault → Result
  | .stackOverflow => .stackOverflow
  | .stackUnderflow => .stackUnderflow
  | .outOfBounds => .outOfBounds

/-! ### RESET and LOAD -/

/-- RESET (R147): every state element takes its reset value, whatever it was (R148). -/
def resetCore (_s : State) : State := State.reset

/-- LOAD (R149): rejected whole, or one byte an address from 0x200 upward; nothing else is touched. -/
def load (bytes : List Byte) (s : State) : Except Fault State :=
  if programStart.toNat + bytes.length > memorySize then .error .outOfBounds
  else .ok { s with mem := s.mem.writeBytes programStart bytes }

/-! ### Transactions -/

/-- The three operations that may change the core (R76). OBSERVE is `outputs`. -/
inductive Request where
  | reset
  | load (bytes : List Byte)
  | step
deriving DecidableEq, Repr

/-- One transaction of a core with parameters `p` (R77): the state after it and its one result (R78). An operation that
fails leaves the core's state as it was (R133); the notice is then 0, for the failed STEP is not of a delegated word (R91,
log 7). A refused STEP has no result and no state after it (R92). -/
def transact (p : Params) (s : State) : Request → Except Refusal (State × Result)
  | .reset => .ok (resetCore s, .ok)
  | .load bytes =>
      match load bytes s with
      | .ok t => .ok (t, .ok)
      | .error e => .ok (s, .ofFault e)
  | .step =>
      match stepWith p s with
      | .next t => .ok (t, .ok)
      | .fault e => .ok (s.clearNotice, .ofFault e)
      | .refused r => .error r

/-- A sequence of host operations (R157), totally ordered (R52, R77): the state after it and the results. A run that
reaches a refused STEP is refused whole: it has no final state, whatever the host would do next (R92). -/
def runRequests (p : Params) (s : State) : List Request → Except Refusal (State × List Result)
  | [] => .ok (s, [])
  | q :: qs =>
      match transact p s q with
      | .error r => .error r
      | .ok (t, result) =>
          match runRequests p t qs with
          | .error r => .error r
          | .ok (u, results) => .ok (u, result :: results)

/-! ### Signals (R79) -/

/-- The inputs of R79 that ask for a transaction. `loadData` holds `loadLen` bytes (log 20). -/
structure Inputs where
  req : BitVec 2
  loadLen : BitVec 13
  loadData : List Byte
deriving DecidableEq, Repr

/-- `req`: `00` none, `01` RESET, `10` LOAD, `11` STEP (R79). -/
def Inputs.request (inp : Inputs) : Option Request :=
  match inp.req with
  | 0b00#2 => none
  | 0b01#2 => some .reset
  | 0b10#2 => some (.load (inp.loadData.take inp.loadLen.toNat))
  | _ => some .step

/-- The outputs of R79, after a transaction with the result `result` (none: no transaction has completed). Where the
spec gives an output no value, it has none here: `result` while `done` is 0, `delegWord` while `delegValid` is 0. A refused
run has no state to observe, and no outputs (R92). -/
structure Outputs where
  done : BitVec 1
  result : Option (BitVec 2)
  obsV : Vector Byte 16
  obsPc : Addr
  obsI : Addr
  obsSp : BitVec 5
  obsStack : Vector Addr 16
  obsMemData : Byte
  delegValid : BitVec 1
  delegWord : Option Word
deriving DecidableEq, Repr

/-- OBSERVE (R80): it reads every element of the state, and any byte of memory through `obs_mem_addr`, and changes
nothing. `obs_sp` is `SP + 1`, the stack depth. -/
def outputs (result : Option Result) (obsMemAddr : Addr) (s : State) : Outputs where
  done := if result.isSome then 1#1 else 0#1
  result := result.map Result.code
  obsV := s.v
  obsPc := s.pc
  obsI := s.i
  obsSp := BitVec.ofNat 5 s.depth.val
  obsStack := s.stack
  obsMemData := s.byte obsMemAddr
  delegValid := if s.notice.isSome then 1#1 else 0#1
  delegWord := s.notice

end Sys2Proof.Machine
end

