-- ==== Sys2Proof/Safety.lean ====
section
/-! DEFINITION. The terms claims use: what an instruction leaves unchanged, what it reads and writes (spec/10_state.md
R23), the invariant every transaction keeps, and the ends of a run (spec/70_reset_and_hazards.md R157). -/

namespace Sys2Proof.Machine

/-! ### Frames -/

/-- Everything but PC and the registers listed is as before: the other registers, I, SP, the stack's slots, every byte
of memory, and the notice. -/
structure KeepsAllBut (regs : List Nibble) (s t : State) : Prop where
  reg : ∀ r, r ∉ regs → t.reg r = s.reg r
  i : t.i = s.i
  depth : t.depth = s.depth
  slot : ∀ k, t.slot k = s.slot k
  byte : ∀ a, t.byte a = s.byte a
  notice : t.notice = s.notice

/-- The core's state is the same: V, PC, I, SP, STACK and M; the notice is an output (R79, R91). -/
def SameCore (s t : State) : Prop := s.clearNotice = t.clearNotice

/-- An answer with its next state changed by `f`; an error and a refusal stay as they are. -/
def mapNext (f : State → State) : Answer → Answer
  | .next t => .next (f t)
  | .fault e => .fault e
  | .refused r => .refused r

/-- The states agree but for the stack's slots above SP, which no instruction can read (R36). -/
structure AgreeBelowSP (s t : State) : Prop where
  v : t.v = s.v
  pc : t.pc = s.pc
  i : t.i = s.i
  depth : t.depth = s.depth
  slot : ∀ k : Nibble, k.toNat < s.depth.val → t.slot k = s.slot k
  mem : t.mem = s.mem
  notice : t.notice = s.notice

/-! ### Which instruction reads and writes which register (R23) -/

/-- The column "reads" of R23. -/
def regsRead : Instr → List Nibble
  | .skipIfEq x _ | .skipIfNeq x _ | .addImm x _ | .shr x _ | .shl x _ => [x]
  | .skipIfRegEq x y _ | .skipIfRegNeq x y _ | .or x y | .and x y | .xor x y | .add x y | .sub x y
  | .subn x y => [x, y]
  | .copy _ y => [y]
  | .jumpOffset _ => [0x0#4]
  | .ret _ | .clear | .nop0 | .unrecognized0NNN _ | .jump _ | .call _ | .loadImm _ _
  | .unrecognized8XY9 _ _ | .unrecognized8XYA _ _ | .unrecognized8XYB _ _ | .unrecognized8XYC _ _
  | .unrecognized8XYD _ _ | .unrecognized8XYE _ _ | .unrecognized8XYF _ _ | .loadI _ | .drawRandom _ _
  | .drawSprite _ _ _ | .keySkipPressed _ | .keySkipNotPressed _ | .delegatedEOther _ _
  | .timerReadDelay _ | .waitKey _ | .timerSetDelay _ | .timerSetSound _ | .delegatedFX1E _
  | .delegatedFX29 _ | .delegatedFX33 _ | .delegatedFX55 _ | .delegatedFX65 _ | .delegatedFOther _ _
  | .unrecognized5XYN _ _ _ | .unrecognized9XYN _ _ _ => []

/-- The column "writes" of R23. -/
def regsWritten : Instr → List Nibble
  | .loadImm x _ | .addImm x _ | .copy x _ | .or x _ | .and x _ | .xor x _ => [x]
  | .add x _ | .sub x _ | .shr x _ | .subn x _ | .shl x _ => [x, flagReg]
  | .ret _ | .clear | .nop0 | .unrecognized0NNN _ | .jump _ | .call _ | .skipIfEq _ _ | .skipIfNeq _ _
  | .skipIfRegEq _ _ _ | .unrecognized8XY9 _ _ | .unrecognized8XYA _ _ | .unrecognized8XYB _ _
  | .unrecognized8XYC _ _ | .unrecognized8XYD _ _ | .unrecognized8XYE _ _ | .unrecognized8XYF _ _
  | .skipIfRegNeq _ _ _ | .loadI _ | .jumpOffset _ | .drawRandom _ _ | .drawSprite _ _ _
  | .keySkipPressed _ | .keySkipNotPressed _ | .delegatedEOther _ _ | .timerReadDelay _ | .waitKey _
  | .timerSetDelay _ | .timerSetSound _ | .delegatedFX1E _ | .delegatedFX29 _ | .delegatedFX33 _
  | .delegatedFX55 _ | .delegatedFX65 _ | .delegatedFOther _ _ | .unrecognized5XYN _ _ _
  | .unrecognized9XYN _ _ _ => []

/-! ### The invariant -/

/-- `w` is CLEAR's word or of a family 0xC to 0xF: a word a notice may name (R73, R91). -/
def delegatedWord (w : Word) : Prop := w = 0x00E0#16 ∨ 0xC ≤ (fieldOp w).toNat

/-- Memory is in its canonical form, and a notice names a delegated word. -/
def State.Inv (s : State) : Prop := s.mem.wf ∧ ∀ w, s.notice = some w → delegatedWord w

/-! ### Ends of a run (R157) -/

/-- (a) A STEP ends the run in the error `e`. -/
def EndsInError (p : Params) (s : State) (e : Fault) : Prop := stepWith p s = .fault e

/-- (b) A STEP maps the core's state to itself and returns OK. -/
def FixedPoint (p : Params) (s : State) : Prop := ∃ t, stepWith p s = .next t ∧ SameCore s t

end Sys2Proof.Machine
end

