-- ==== Sys2Proof/Certificates/Slice0/Obligations.lean ====
section
/-! DEFINITION. The statements for the provers. Each docstring names the rule of spec/ it formalises. `t.pc = s.pcNext`
says `PC <- PCnext` in the words of the instruction rules (R13); that PCnext wraps modulo 0x1000 is the spec's own
decision D4 (log 2), stated as numbers in `PcAfterEveryInstruction` alone. -/

open Sys2Proof Sys2Proof.Machine

/-! ### Words -/

/-- R61: the operand fields, by the source's own masks and shifts. -/
def Obligations.FieldsAreTheSourcesMasks : Prop :=
  ∀ w : Word,
    (fieldOp w).toNat = (w.toNat &&& 0xF000) >>> 12 ∧ (fieldX w).toNat = (w.toNat &&& 0x0F00) >>> 8 ∧
    (fieldY w).toNat = (w.toNat &&& 0x00F0) >>> 4 ∧ (fieldN w).toNat = w.toNat &&& 0x000F ∧
    (fieldNN w).toNat = w.toNat &&& 0x00FF ∧ (fieldNNN w).toNat = w.toNat &&& 0x0FFF

/-- Words written out from the rows of the opcode table (R67), one of each family and of the corners of 0x0 and 0x8. -/
def Obligations.SampleWordsDecodeAsTheTableSays : Prop :=
  decodeTableWord 16 0x00EE = some (.ret 0x0#4) ∧ decodeTableWord 16 0x00E0 = some .clear ∧
  decodeTableWord 16 0x0000 = some .nop0 ∧ decodeTableWord 16 0x0123 = some (.unrecognized0NNN 0x123) ∧
  decodeTableWord 16 0x1234 = some (.jump 0x234) ∧ decodeTableWord 16 0x2204 = some (.call 0x204) ∧
  decodeTableWord 16 0x3312 = some (.skipIfEq 0x3 0x12) ∧ decodeTableWord 16 0x5120 = some (.skipIfRegEq 0x1 0x2 0x0) ∧
  decodeTableWord 16 0x6A5C = some (.loadImm 0xA 0x5C) ∧ decodeTableWord 16 0x8AB4 = some (.add 0xA 0xB) ∧
  decodeTableWord 16 0x8128 = some (.shl 0x1 0x2) ∧ decodeTableWord 16 0x810E = some (.unrecognized8XYE 0x1 0x0) ∧
  decodeTableWord 16 0xA2F0 = some (.loadI 0x2F0) ∧ decodeTableWord 16 0xB101 = some (.jumpOffset 0x101) ∧
  decodeTableWord 16 0xD125 = some (.drawSprite 0x1 0x2 0x5) ∧ decodeTableWord 16 0xF10A = some (.waitKey 0x1)

/-- Decoding an encoded well-formed instruction gives it back, with every operand, under all parameters, and from the
two bytes memory holds (R42, R60, R65). -/
def Obligations.DecodeOfEncodeIsTheInstruction : Prop :=
  ∀ (p : Params) (i : Instr) (rest : List Byte), i.wellFormed p = true →
    decodeWord p (encode i) = i ∧ decodeBytes p (encodeBytes i ++ rest) = .ok (i, rest)

/-- Every word decodes to a well-formed instruction whose word it is (R65, R82): decoding is total. That it drops no bit
is the model's choice of operands (DESIGN CHOICE, log 15): a constructor carries the bits of its word that R65's tag drops
because the core ignores them, the `N` of `5XYN` and the `X` of `0XEE`. -/
def Obligations.EncodeOfDecodeIsTheWord : Prop :=
  ∀ (p : Params) (w : Word), (decodeWord p w).wellFormed p = true ∧ encode (decodeWord p w) = w

/-- The decoder of R65 is the opcode table read by its own rule: "the first row with (word & mask) == match gives the
instruction". The codes of the rows FX1E, FX29, FX33, FX55 and FX65 are the spec's from general knowledge, and R65 itself
gives one tag for all of the families 0xC to 0xF (PRESUMED, log 21). -/
def Obligations.DecoderIsTheOpcodeTable : Prop :=
  ∀ w : Word, (firstRow w).map (·.mnemonic) = some (decodeWord Params.reference w).mnemonic

/-- R71 (derived by the spec; the options are D5 and D6, log 1, 17): the unrecognized words under every parameter, and
what `0XEE` is under `ZERO_FAMILY_LOW_BYTE_DECODE`. -/
def Obligations.UnrecognizedWordsAreThese : Prop :=
  ∀ (p : Params) (w : Word),
    ((decodeWord p w).isUnrecognized = true ↔
      (fieldOp w = 0x0#4 ∧ w ≠ 0x0000#16 ∧ w ≠ 0x00E0#16 ∧ w ≠ 0x00EE#16 ∧
        ¬(p.zeroFamilyLowByteDecode = true ∧ fieldNN w = 0xEE#8)) ∨
      (fieldOp w = 0x8#4 ∧ 0x9 ≤ (fieldN w).toNat) ∨
      (p.strictSkipRegDecode = true ∧ (fieldOp w = 0x5#4 ∨ fieldOp w = 0x9#4) ∧ fieldN w ≠ 0x0#4)) ∧
    (p.zeroFamilyLowByteDecode = true → fieldOp w = 0x0#4 → fieldNN w = 0xEE#8 →
      decodeWord p w = .ret (fieldX w))

/-- R73: every word of the families 0xC to 0xF and the one word 00E0 are delegated, whatever the low bits and the
parameters, and no other. -/
def Obligations.DelegatedWordsAreThese : Prop :=
  ∀ (p : Params) (w : Word), (decodeWord p w).isDelegated = true ↔ delegatedWord w

/-! ### Reset and the host's operations -/

/-- R40, R147: after RESET every piece of state has its value, whatever it was, and RESET answers OK. (The notice, which
the rules do not name, is the model's choice, log 7: `NoticeAcrossOperations`.) -/
def Obligations.ResetLeavesTheseValues : Prop :=
  ∀ (p : Params) (s : State), ∃ t, transact p s .reset = .ok (t, .ok) ∧
    (∀ r, t.reg r = 0x00#8) ∧ t.pc = 0x200#12 ∧ t.i = 0x000#12 ∧ (∀ k, t.slot k = 0x000#12) ∧ t.sp = -1 ∧
    ∀ a, t.byte a = 0x00#8

/-- R149: LOAD copies its bytes from 0x200 upward, one an address, and touches nothing else of the core's state, up to
3584 bytes; a longer one answers OutOfBounds and leaves the core's state as it was. (What LOAD makes of the notice, which
the rule does not name, is the model's choice, log 7: `NoticeAcrossOperations`.) -/
def Obligations.LoadCopiesOrIsRejectedWhole : Prop :=
  ∀ (p : Params) (s : State) (bytes : List Byte), s.mem.wf →
    (0x200 + bytes.length ≤ 4096 → ∃ t,
      transact p s (.load bytes) = .ok (t, .ok) ∧
      (∀ k (h : k < bytes.length), t.byte (BitVec.ofNat 12 (0x200 + k)) = bytes[k]) ∧
      (∀ a : Addr, a.toNat < 0x200 ∨ 0x200 + bytes.length ≤ a.toNat → t.byte a = s.byte a) ∧
      (∀ r, t.reg r = s.reg r) ∧ t.pc = s.pc ∧ t.i = s.i ∧ t.sp = s.sp ∧ ∀ k, t.slot k = s.slot k) ∧
    (4096 < 0x200 + bytes.length → ∃ t, transact p s (.load bytes) = .ok (t, .outOfBounds) ∧ SameCore t s)

/-- The notice across the operations: a RESET leaves none and a LOAD leaves it as it was, of which the spec says nothing
(DESIGN CHOICE, log 7); a STEP that fails leaves none, for it is no STEP of a delegated word (R91). -/
def Obligations.NoticeAcrossOperations : Prop :=
  ∀ (p : Params) (s t : State) (r : Result),
    (transact p s .reset = .ok (t, r) → t.notice = none) ∧
    (∀ bytes, transact p s (.load bytes) = .ok (t, r) → t.notice = s.notice) ∧
    (transact p s .step = .ok (t, r) → r ≠ .ok → t.notice = none)

/-- R78 (the codes are the spec's decision D2). -/
def Obligations.ResultCodes : Prop :=
  Result.ok.code = 0b00#2 ∧ (Result.ofFault .stackOverflow).code = 0b01#2 ∧
  (Result.ofFault .stackUnderflow).code = 0b10#2 ∧ (Result.ofFault .outOfBounds).code = 0b11#2

/-- R80 (the reach of OBSERVE is the spec's decision D16): what OBSERVE reads is the whole state, so that two states
with canonical memories that answer alike at every memory address are one state. -/
def Obligations.ObserveDeterminesTheState : Prop :=
  ∀ s t : State, s.mem.wf → t.mem.wf → (∀ a, outputs none a s = outputs none a t) → s = t

/-- R74 (the spec's decision D19): a line of the assembler's table, with operand texts that spell its operands, gives the
word of the instruction it names; `SHR` and `SHL` with one operand have `y = 0`. -/
def Obligations.AssemblerTableGivesTheInstructionsWord : Prop :=
  assembleNamed "RETURN" [] = some (encode (.ret 0x0#4)) ∧ assembleNamed "CLEAR" [] = some (encode .clear) ∧
  assembleNamed "NOP0" [] = some (encode .nop0) ∧
  (∀ a nnn, immediate 12 a = some nnn →
    assembleNamed "JUMP" [a] = some (encode (.jump nnn)) ∧ assembleNamed "CALL" [a] = some (encode (.call nnn)) ∧
    assembleNamed "LOAD-I" [a] = some (encode (.loadI nnn)) ∧
    assembleNamed "JUMP-OFFSET" [a] = some (encode (.jumpOffset nnn))) ∧
  (∀ a b x nn, register a = some x → immediate 8 b = some nn →
    assembleNamed "SKIP-IF-EQ" [a, b] = some (encode (.skipIfEq x nn)) ∧
    assembleNamed "SKIP-IF-NEQ" [a, b] = some (encode (.skipIfNeq x nn)) ∧
    assembleNamed "LOAD-IMM" [a, b] = some (encode (.loadImm x nn)) ∧
    assembleNamed "LOAD" [a, b] = some (encode (.loadImm x nn)) ∧
    assembleNamed "ADD-IMM" [a, b] = some (encode (.addImm x nn))) ∧
  (∀ a b x y, register a = some x → register b = some y →
    assembleNamed "SKIP-IF-REG-EQ" [a, b] = some (encode (.skipIfRegEq x y 0x0#4)) ∧
    assembleNamed "SKIP-IF-REG-NEQ" [a, b] = some (encode (.skipIfRegNeq x y 0x0#4)) ∧
    assembleNamed "COPY" [a, b] = some (encode (.copy x y)) ∧ assembleNamed "OR" [a, b] = some (encode (.or x y)) ∧
    assembleNamed "AND" [a, b] = some (encode (.and x y)) ∧ assembleNamed "XOR" [a, b] = some (encode (.xor x y)) ∧
    assembleNamed "ADD" [a, b] = some (encode (.add x y)) ∧ assembleNamed "SUB" [a, b] = some (encode (.sub x y)) ∧
    assembleNamed "SHR" [a, b] = some (encode (.shr x y)) ∧ assembleNamed "SUBN" [a, b] = some (encode (.subn x y)) ∧
    assembleNamed "SHL" [a, b] = some (encode (.shl x y)) ∧
    assembleNamed "SHR" [a] = some (encode (.shr x 0x0#4)) ∧ assembleNamed "SHL" [a] = some (encode (.shl x 0x0#4))) ∧
  (∀ a w, immediate 16 a = some w → assembleNamed ".word" [a] = some w)

/-! ### Fetch and the sequencer -/

/-- R81: the fetch is out of bounds exactly at PC = 0xFFF, and else reads `(high << 8) | low`, whatever PC's parity. -/
def Obligations.FetchIsBigEndianAndBounded : Prop :=
  ∀ s : State,
    (s.pc.toNat + 1 > 0xFFF → fetch s = .error .outOfBounds) ∧
    (s.pc.toNat + 1 ≤ 0xFFF → ∃ w, fetch s = .ok w ∧
      w.toNat = (s.byte s.pc).toNat * 256 + (s.byte (BitVec.ofNat 12 (s.pc.toNat + 1))).toNat)

/-- A STEP is its fetch, its decode and its instruction (R84), run with the notice of the STEP before dropped (R91, log 7);
under `DELEGATED_MODE = refuse` a delegated word is refused (R92). The last clause says it of the host's `step`: where the
two bytes at PC decode to `i`, `step` is `exec i`. -/
def Obligations.StepRunsTheDecodedInstruction : Prop :=
  (∀ (p : Params) (s : State) (e : Fault), fetch s = .error e → stepWith p s = .fault e) ∧
  (∀ (p : Params) (s : State) (w : Word), fetch s = .ok w →
    stepWith p s = if p.delegatedMode = .refuse ∧ (decodeWord p w).isDelegated = true then
      .refused (.delegatedRefused w) else exec (decodeWord p w) s.clearNotice) ∧
  (∀ (s : State) (i : Instr), s.pc ≠ 0xFFF#12 →
    decodeBytes Params.reference [s.byte s.pc, s.byte (s.pc + 1)] = .ok (i, []) →
    step s = exec i s.clearNotice)

/-- An instruction placed where the next fetch reads it (log 11, the model's choice) is the one the next STEP runs. -/
def Obligations.PlacedInstructionRunsNext : Prop :=
  ∀ (s : State) (w : Nat), s.mem.wf → s.pc ≠ 0xFFF#12 → w < 65536 →
    step (s.withFetchWord 16 w) =
      exec (decodeWord Params.reference (BitVec.ofNat 16 w)) (s.withFetchWord 16 w).clearNotice

/-- R104, and R131's taxonomy with the conditions it takes from R81, R94, R95 and R149, and R147 on RESET: a STEP fails exactly at PC = 0xFFF, or on CALL with SP = 15, or on RETURN with
SP = -1; a LOAD exactly when 0x200 + len > 4096; RESET never. -/
def Obligations.ErrorsAreExactlyThese : Prop :=
  (∀ (p : Params) (s : State) (e : Fault), stepWith p s = .fault e ↔
    (s.pc = 0xFFF#12 ∧ e = .outOfBounds) ∨
    (∃ w, fetch s = .ok w ∧
      ((∃ nnn, decodeWord p w = .call nnn ∧ s.sp = 15 ∧ e = .stackOverflow) ∨
       (∃ x, decodeWord p w = .ret x ∧ s.sp = -1 ∧ e = .stackUnderflow)))) ∧
  (∀ (s : State) (bytes : List Byte) (e : Fault),
    load bytes s = .error e ↔ 0x200 + bytes.length > 4096 ∧ e = .outOfBounds) ∧
  ∀ (p : Params) (s : State), ∃ t, transact p s .reset = .ok (t, .ok)

/-- R133: an operation that answers an error leaves V, PC, I, SP, STACK and M as they were. -/
def Obligations.FailedOperationChangesNothing : Prop :=
  ∀ (p : Params) (s t : State) (q : Request) (r : Result), transact p s q = .ok (t, r) → r ≠ .ok → SameCore t s

/-- R89 (derived by the spec, D13): a STEP after a failed STEP fails with the same error, and changes nothing more. -/
def Obligations.FailedStepFailsAgain : Prop :=
  ∀ (p : Params) (s t : State) (r : Result), transact p s .step = .ok (t, r) → r ≠ .ok →
    transact p t .step = .ok (t, r)

/-- R92 (the spec's decision D9): the model refuses a STEP exactly when `DELEGATED_MODE = refuse` and the fetched word is
CLEAR or of a family 0xC to 0xF; so the host's `step`, under the reference parameters, refuses nothing. -/
def Obligations.OnlyDelegatedWordsAreRefused : Prop :=
  (∀ (p : Params) (s : State) (r : Refusal), stepWith p s = .refused r ↔
    p.delegatedMode = .refuse ∧ ∃ w, fetch s = .ok w ∧ delegatedWord w ∧ r = .delegatedRefused w) ∧
  ∀ (s : State) (r : Refusal), step s ≠ .refused r

/-- R92, and R7's `refuse` (the spec's decision D9): a refused STEP has no result and no state after it, and a run that
reaches one is refused whole, whatever operations follow, so that no final state of it can be claimed. Nothing else makes
a run refused. -/
def Obligations.RefusedRunHasNoFinalState : Prop :=
  (∀ (p : Params) (s : State) (q : Request) (r : Refusal),
    transact p s q = .error r ↔ q = .step ∧ stepWith p s = .refused r) ∧
  (∀ (p : Params) (s : State) (qs : List Request) (r : Refusal), runRequests p s qs = .error r ↔
    ∃ before after t results, qs = before ++ .step :: after ∧ runRequests p s before = .ok (t, results) ∧
      stepWith p t = .refused r)

/-- R91 (the spec's decision D9): after a STEP the notice names the fetched word if it is delegated and is 0 otherwise,
and the notice there was has no effect on the STEP. -/
def Obligations.NoticeNamesTheDelegatedWord : Prop :=
  (∀ (p : Params) (s t : State) (w : Word), fetch s = .ok w → stepWith p s = .next t →
    (delegatedWord w → t.notice = some w) ∧ (¬delegatedWord w → t.notice = none)) ∧
  ∀ (p : Params) (s : State) (w : Word),
    stepWith p (s.raiseNotice w) = stepWith p s ∧ stepWith p s.clearNotice = stepWith p s

/-! ### Control flow -/

/-- R93: JUMP. `NNN` is absolute and any 12-bit value; a JUMP to itself repeats, and after one to 0xFFF the next STEP
fails. -/
def Obligations.JumpGoesToNNN : Prop :=
  (∀ (p : Params) (w : Word), fieldOp w = 0x1#4 → decodeWord p w = .jump (fieldNNN w)) ∧
  ∀ (nnn : Addr) (s : State), ∃ t, exec (.jump nnn) s = .next t ∧ t.pc = nnn ∧ KeepsAllBut [] s t ∧
    (nnn = s.pc → exec (.jump nnn) t = .next t) ∧
    (nnn = 0xFFF#12 → ∀ p, stepWith p t = .fault .outOfBounds)

/-- R94: CALL pushes PCnext and jumps while SP < 15, and raises StackOverflow at SP = 15. -/
def Obligations.CallPushesTheReturnAddress : Prop :=
  (∀ (p : Params) (w : Word), fieldOp w = 0x2#4 → decodeWord p w = .call (fieldNNN w)) ∧
  (∀ (nnn : Addr) (s : State), s.sp < 15 → ∃ t,
    exec (.call nnn) s = .next t ∧ t.pc = nnn ∧ t.sp = s.sp + 1 ∧
    (∀ k : Nibble, t.slot k = if (k.toNat : Int) = t.sp then s.pcNext else s.slot k) ∧
    (∀ r, t.reg r = s.reg r) ∧ t.i = s.i ∧ (∀ a, t.byte a = s.byte a) ∧ t.notice = s.notice) ∧
  ∀ (nnn : Addr) (s : State), s.sp = 15 → exec (.call nnn) s = .fault .stackOverflow

/-- R95: RETURN pops into PC while SP > -1, and raises StackUnderflow at SP = -1. That the vacated slot keeps its value is
the spec's decision D10 (log 8). -/
def Obligations.ReturnPopsIntoPc : Prop :=
  (∀ p : Params, decodeWord p 0x00EE#16 = .ret 0x0#4) ∧
  (∀ (x : Nibble) (s : State), -1 < s.sp → ∃ t,
    exec (.ret x) s = .next t ∧ (∀ k : Nibble, (k.toNat : Int) = s.sp → t.pc = s.slot k) ∧ t.sp = s.sp - 1 ∧
    (∀ k, t.slot k = s.slot k) ∧ (∀ r, t.reg r = s.reg r) ∧ t.i = s.i ∧ (∀ a, t.byte a = s.byte a) ∧
    t.notice = s.notice) ∧
  ∀ (x : Nibble) (s : State), s.sp = -1 → exec (.ret x) s = .fault .stackUnderflow

/-- A CALL and then a RETURN come back to the word after the CALL, with the stack's entries as they were (R94, R95). -/
def Obligations.ReturnComesBackAfterTheCall : Prop :=
  ∀ (nnn : Addr) (x : Nibble) (s : State), s.sp < 15 → ∃ t u, exec (.call nnn) s = .next t ∧ exec (.ret x) t = .next u ∧
    u.pc = s.pcNext ∧ AgreeBelowSP (s.setPc s.pcNext) u

/-- R94's property: of seventeen CALLs from an empty stack sixteen complete, each return address staying in its slot, and
the seventeenth raises StackOverflow. -/
def Obligations.SeventeenthCallOverflows : Prop :=
  ∀ (target : Nat → Addr) (s : State), s.sp = -1 → ∃ run : Nat → State, run 0 = s ∧
    (∀ k, k < 16 → exec (.call (target k)) (run k) = .next (run (k + 1))) ∧
    (∀ k : Nibble, (run 16).slot k = (run k.toNat).pcNext) ∧
    exec (.call (target 16)) (run 16) = .fault .stackOverflow

/-- R97, R98, with the PC effect of R96 (its `mod 0x1000` is the spec's decision D4, log 2): the skips that compare with
`NN` always complete, whatever the skipped word is. -/
def Obligations.ImmediateSkipsTestForEquality : Prop :=
  (∀ (p : Params) (w : Word), fieldOp w = 0x3#4 → decodeWord p w = .skipIfEq (fieldX w) (fieldNN w)) ∧
  (∀ (p : Params) (w : Word), fieldOp w = 0x4#4 → decodeWord p w = .skipIfNeq (fieldX w) (fieldNN w)) ∧
  ∀ (x : Nibble) (nn : Byte) (s : State),
    (∃ t, exec (.skipIfEq x nn) s = .next t ∧ KeepsAllBut [] s t ∧
      t.pc.toNat = (s.pc.toNat + if s.reg x = nn then 4 else 2) % 0x1000) ∧
    (∃ t, exec (.skipIfNeq x nn) s = .next t ∧ KeepsAllBut [] s t ∧
      t.pc.toNat = (s.pc.toNat + if s.reg x = nn then 2 else 4) % 0x1000)

/-- R99, R100, with the PC effect of R96 (D4, log 2) and the option of D5 (log 1, 17): the low nibble is ignored unless
`STRICT_SKIP_REG_DECODE`, under which a nonzero one makes the word unrecognized. -/
def Obligations.RegisterSkipsTestForEquality : Prop :=
  (∀ (p : Params) (w : Word), fieldOp w = 0x5#4 → decodeWord p w =
    if p.strictSkipRegDecode = true ∧ fieldN w ≠ 0x0#4 then .unrecognized5XYN (fieldX w) (fieldY w) (fieldN w)
    else .skipIfRegEq (fieldX w) (fieldY w) (fieldN w)) ∧
  (∀ (p : Params) (w : Word), fieldOp w = 0x9#4 → decodeWord p w =
    if p.strictSkipRegDecode = true ∧ fieldN w ≠ 0x0#4 then .unrecognized9XYN (fieldX w) (fieldY w) (fieldN w)
    else .skipIfRegNeq (fieldX w) (fieldY w) (fieldN w)) ∧
  ∀ (x y n : Nibble) (s : State),
    (∃ t, exec (.skipIfRegEq x y n) s = .next t ∧ KeepsAllBut [] s t ∧
      t.pc.toNat = (s.pc.toNat + if s.reg x = s.reg y then 4 else 2) % 0x1000) ∧
    (∃ t, exec (.skipIfRegNeq x y n) s = .next t ∧ KeepsAllBut [] s t ∧
      t.pc.toNat = (s.pc.toNat + if s.reg x = s.reg y then 2 else 4) % 0x1000)

/-- R101: JUMP-OFFSET adds `V[0]`, never another register, to `NNN` modulo 0x1000; where that is 0xFFF the next STEP
fails. -/
def Obligations.JumpOffsetAddsV0 : Prop :=
  (∀ (p : Params) (w : Word), fieldOp w = 0xB#4 → decodeWord p w = .jumpOffset (fieldNNN w)) ∧
  ∀ (nnn : Addr) (s : State), ∃ t, exec (.jumpOffset nnn) s = .next t ∧
    t.pc.toNat = ((s.reg 0x0#4).toNat + nnn.toNat) % 0x1000 ∧ KeepsAllBut [] s t ∧
    ((s.reg 0x0#4).toNat + nnn.toNat = 0xFFF → ∀ p, stepWith p t = .fault .outOfBounds)

/-- R27 (its `mod 0x1000` is the spec's decision D4, log 2): PC after every instruction that completes, as a number. -/
def Obligations.PcAfterEveryInstruction : Prop :=
  ∀ (i : Instr) (s t : State), exec i s = .next t →
    match i with
    | .jump nnn | .call nnn => t.pc = nnn
    | .ret _ => ∀ k : Nibble, (k.toNat : Int) = s.sp → t.pc = s.slot k
    | .skipIfEq x nn => t.pc.toNat = (s.pc.toNat + if s.reg x = nn then 4 else 2) % 0x1000
    | .skipIfNeq x nn => t.pc.toNat = (s.pc.toNat + if s.reg x ≠ nn then 4 else 2) % 0x1000
    | .skipIfRegEq x y _ => t.pc.toNat = (s.pc.toNat + if s.reg x = s.reg y then 4 else 2) % 0x1000
    | .skipIfRegNeq x y _ => t.pc.toNat = (s.pc.toNat + if s.reg x ≠ s.reg y then 4 else 2) % 0x1000
    | .jumpOffset nnn => t.pc.toNat = ((s.reg 0x0#4).toNat + nnn.toNat) % 0x1000
    | _ => t.pc.toNat = (s.pc.toNat + 2) % 0x1000

/-- R35: the two stack primitives with their checks, what they leave alone, and that only CALL pushes and only RETURN
pops. -/
def Obligations.StackPrimitives : Prop :=
  (∀ (a : Addr) (s : State),
    (s.sp = 15 → push a s = .error .stackOverflow) ∧
    (s.sp ≠ 15 → ∃ t, push a s = .ok t ∧ t.sp = s.sp + 1 ∧
      (∀ k : Nibble, t.slot k = if (k.toNat : Int) = t.sp then a else s.slot k) ∧
      (∀ r, t.reg r = s.reg r) ∧ t.pc = s.pc ∧ t.i = s.i ∧ ∀ b, t.byte b = s.byte b)) ∧
  (∀ s : State,
    (s.sp = -1 → pop s = .error .stackUnderflow) ∧
    (s.sp ≠ -1 → ∃ (k : Nibble) (t : State), pop s = .ok (s.slot k, t) ∧ (k.toNat : Int) = s.sp ∧ t.sp = s.sp - 1 ∧
      (∀ k : Nibble, (k.toNat : Int) ≤ t.sp → t.slot k = s.slot k) ∧
      (∀ r, t.reg r = s.reg r) ∧ t.pc = s.pc ∧ t.i = s.i ∧ ∀ b, t.byte b = s.byte b)) ∧
  ∀ (i : Instr) (s t : State), exec i s = .next t → (∀ nnn, i ≠ .call nnn) → (∀ x, i ≠ .ret x) →
    t.sp = s.sp ∧ ∀ k, t.slot k = s.slot k

/-! ### The ALU -/

/-- R105, its table as numbers. The flag of equal operands is 0 by the formula (C3, log 4); that SHL's flag is 0 or 1 is the
spec's decision D8 (log 5). -/
def Obligations.AluTable : Prop :=
  ∀ a b : Byte,
    alu .pass a b = (b, none) ∧
    (∃ r, alu .addi a b = (r, none) ∧ r.toNat = (a.toNat + b.toNat) % 256) ∧
    (∃ r, alu .or a b = (r, none) ∧ r.toNat = a.toNat ||| b.toNat) ∧
    (∃ r, alu .and a b = (r, none) ∧ r.toNat = a.toNat &&& b.toNat) ∧
    (∃ r, alu .xor a b = (r, none) ∧ r.toNat = a.toNat ^^^ b.toNat) ∧
    (∃ r f, alu .add a b = (r, some f) ∧ r.toNat = (a.toNat + b.toNat) % 256 ∧
      f.toNat = if a.toNat + b.toNat > 255 then 1 else 0) ∧
    (∃ r f, alu .sub a b = (r, some f) ∧ (r.toNat : Int) = ((a.toNat : Int) - b.toNat) % 256 ∧
      f.toNat = if a.toNat > b.toNat then 1 else 0) ∧
    (∃ r f, alu .shr a b = (r, some f) ∧ r.toNat = a.toNat / 2 ∧ f.toNat = a.toNat % 2) ∧
    (∃ r f, alu .subn a b = (r, some f) ∧ (r.toNat : Int) = ((b.toNat : Int) - a.toNat) % 256 ∧
      f.toNat = if b.toNat > a.toNat then 1 else 0) ∧
    (∃ r f, alu .shl a b = (r, some f) ∧ r.toNat = a.toNat * 2 % 256 ∧ f.toNat = a.toNat / 128 % 2)

/-- R107: LOAD-IMM. -/
def Obligations.LoadImmWritesNN : Prop :=
  (∀ (p : Params) (w : Word), fieldOp w = 0x6#4 → decodeWord p w = .loadImm (fieldX w) (fieldNN w)) ∧
  ∀ (x : Nibble) (nn : Byte) (s : State), ∃ t, exec (.loadImm x nn) s = .next t ∧
    t.reg x = nn ∧ t.pc = s.pcNext ∧ KeepsAllBut [x] s t

/-- R108: ADD-IMM, with no carry: `VF` changes only as the destination. -/
def Obligations.AddImmAddsModulo256 : Prop :=
  (∀ (p : Params) (w : Word), fieldOp w = 0x7#4 → decodeWord p w = .addImm (fieldX w) (fieldNN w)) ∧
  ∀ (x : Nibble) (nn : Byte) (s : State), ∃ t, exec (.addImm x nn) s = .next t ∧
    (t.reg x).toNat = ((s.reg x).toNat + nn.toNat) % 256 ∧ t.pc = s.pcNext ∧ KeepsAllBut [x] s t

/-- R109: COPY. -/
def Obligations.CopyCopiesVY : Prop :=
  (∀ (p : Params) (w : Word), fieldOp w = 0x8#4 → fieldN w = 0x0#4 → decodeWord p w = .copy (fieldX w) (fieldY w)) ∧
  ∀ (x y : Nibble) (s : State), ∃ t, exec (.copy x y) s = .next t ∧
    t.reg x = s.reg y ∧ t.pc = s.pcNext ∧ KeepsAllBut [x] s t

/-- R110: OR, with no flag. -/
def Obligations.OrCombinesBits : Prop :=
  (∀ (p : Params) (w : Word), fieldOp w = 0x8#4 → fieldN w = 0x1#4 → decodeWord p w = .or (fieldX w) (fieldY w)) ∧
  ∀ (x y : Nibble) (s : State), ∃ t, exec (.or x y) s = .next t ∧
    (t.reg x).toNat = (s.reg x).toNat ||| (s.reg y).toNat ∧ t.pc = s.pcNext ∧ KeepsAllBut [x] s t

/-- R111: AND, with no flag. -/
def Obligations.AndCombinesBits : Prop :=
  (∀ (p : Params) (w : Word), fieldOp w = 0x8#4 → fieldN w = 0x2#4 → decodeWord p w = .and (fieldX w) (fieldY w)) ∧
  ∀ (x y : Nibble) (s : State), ∃ t, exec (.and x y) s = .next t ∧
    (t.reg x).toNat = (s.reg x).toNat &&& (s.reg y).toNat ∧ t.pc = s.pcNext ∧ KeepsAllBut [x] s t

/-- R112: XOR, with no flag. -/
def Obligations.XorCombinesBits : Prop :=
  (∀ (p : Params) (w : Word), fieldOp w = 0x8#4 → fieldN w = 0x3#4 → decodeWord p w = .xor (fieldX w) (fieldY w)) ∧
  ∀ (x y : Nibble) (s : State), ∃ t, exec (.xor x y) s = .next t ∧
    (t.reg x).toNat = (s.reg x).toNat ^^^ (s.reg y).toNat ∧ t.pc = s.pcNext ∧ KeepsAllBut [x] s t

/-- R113: ADD, `VF <- carry` as the last write: with `X = 0xF` only the carry is left. -/
def Obligations.AddSetsTheCarry : Prop :=
  (∀ (p : Params) (w : Word), fieldOp w = 0x8#4 → fieldN w = 0x4#4 → decodeWord p w = .add (fieldX w) (fieldY w)) ∧
  ∀ (x y : Nibble) (s : State), ∃ t, exec (.add x y) s = .next t ∧
    (x ≠ 0xF#4 → (t.reg x).toNat = ((s.reg x).toNat + (s.reg y).toNat) % 256) ∧
    (t.reg 0xF#4).toNat = (if (s.reg x).toNat + (s.reg y).toNat > 255 then 1 else 0) ∧
    t.pc = s.pcNext ∧ KeepsAllBut [x, 0xF#4] s t

/-- R114: SUB, `VF <- 1` when `V[X] > V[Y]`, else 0, equal operands giving 0 (C3, log 4). -/
def Obligations.SubSetsGreater : Prop :=
  (∀ (p : Params) (w : Word), fieldOp w = 0x8#4 → fieldN w = 0x5#4 → decodeWord p w = .sub (fieldX w) (fieldY w)) ∧
  ∀ (x y : Nibble) (s : State), ∃ t, exec (.sub x y) s = .next t ∧
    (x ≠ 0xF#4 → ((t.reg x).toNat : Int) = (((s.reg x).toNat : Int) - (s.reg y).toNat) % 256) ∧
    (t.reg 0xF#4).toNat = (if (s.reg x).toNat > (s.reg y).toNat then 1 else 0) ∧
    t.pc = s.pcNext ∧ KeepsAllBut [x, 0xF#4] s t

/-- R115: SHR of `V[X]`, `VF <-` its old bit 0; `Y` has no effect. -/
def Obligations.ShrShiftsOutBitZero : Prop :=
  (∀ (p : Params) (w : Word), fieldOp w = 0x8#4 → fieldN w = 0x6#4 → decodeWord p w = .shr (fieldX w) (fieldY w)) ∧
  ∀ (x y : Nibble) (s : State), ∃ t, exec (.shr x y) s = .next t ∧
    (x ≠ 0xF#4 → (t.reg x).toNat = (s.reg x).toNat / 2) ∧ (t.reg 0xF#4).toNat = (s.reg x).toNat % 2 ∧
    t.pc = s.pcNext ∧ KeepsAllBut [x, 0xF#4] s t

/-- R116: SUBN, `VF <- 1` when `V[Y] > V[X]`, else 0, equal operands giving 0 (C3, log 4). -/
def Obligations.SubnSetsGreater : Prop :=
  (∀ (p : Params) (w : Word), fieldOp w = 0x8#4 → fieldN w = 0x7#4 → decodeWord p w = .subn (fieldX w) (fieldY w)) ∧
  ∀ (x y : Nibble) (s : State), ∃ t, exec (.subn x y) s = .next t ∧
    (x ≠ 0xF#4 → ((t.reg x).toNat : Int) = (((s.reg y).toNat : Int) - (s.reg x).toNat) % 256) ∧
    (t.reg 0xF#4).toNat = (if (s.reg y).toNat > (s.reg x).toNat then 1 else 0) ∧
    t.pc = s.pcNext ∧ KeepsAllBut [x, 0xF#4] s t

/-- R117: SHL of `V[X]`, at `8XY8`; `VF <-` its old bit 7, as 0 or 1 by the spec's decision D8 (log 5); `Y` has no
effect. -/
def Obligations.ShlShiftsOutBitSeven : Prop :=
  (∀ (p : Params) (w : Word), fieldOp w = 0x8#4 → fieldN w = 0x8#4 → decodeWord p w = .shl (fieldX w) (fieldY w)) ∧
  ∀ (x y : Nibble) (s : State), ∃ t, exec (.shl x y) s = .next t ∧
    (x ≠ 0xF#4 → (t.reg x).toNat = (s.reg x).toNat * 2 % 256) ∧ (t.reg 0xF#4).toNat = (s.reg x).toNat / 128 ∧
    t.pc = s.pcNext ∧ KeepsAllBut [x, 0xF#4] s t

/-- R118 (derived by the spec): the results when `X = Y`; with `X = 0xF` ADD leaves the flag alone (R119). -/
def Obligations.SameRegisterTwice : Prop :=
  ∀ (x : Nibble) (s : State),
    (∃ t, exec (.copy x x) s = .next t ∧ t.reg x = s.reg x) ∧
    (∃ t, exec (.or x x) s = .next t ∧ t.reg x = s.reg x) ∧
    (∃ t, exec (.and x x) s = .next t ∧ t.reg x = s.reg x) ∧
    (∃ t, exec (.xor x x) s = .next t ∧ t.reg x = 0x00#8) ∧
    (∃ t, exec (.add x x) s = .next t ∧ (x ≠ 0xF#4 → (t.reg x).toNat = 2 * (s.reg x).toNat % 256) ∧
      (t.reg 0xF#4).toNat = (s.reg x).toNat / 128) ∧
    (∃ t, exec (.sub x x) s = .next t ∧ t.reg x = 0x00#8 ∧ t.reg 0xF#4 = 0x00#8) ∧
    (∃ t, exec (.subn x x) s = .next t ∧ t.reg x = 0x00#8 ∧ t.reg 0xF#4 = 0x00#8)

/-- R119: with `X = 0xF` the flag overwrites the result where the instruction writes a flag, and `VF` receives the result
where it writes none. -/
def Obligations.FlagOverwriteWinsInVF : Prop :=
  ∀ (y : Nibble) (nn : Byte) (s : State),
    (∀ i op, (i, op) ∈ [(Instr.add 0xF#4 y, AluOp.add), (.sub 0xF#4 y, .sub), (.shr 0xF#4 y, .shr), (.subn 0xF#4 y, .subn),
        (.shl 0xF#4 y, .shl)] →
      ∃ t f, exec i s = .next t ∧ (alu op (s.reg 0xF#4) (s.reg y)).2 = some f ∧ t.reg 0xF#4 = f.setWidth 8) ∧
    (∀ i op b, (i, op, b) ∈ [(Instr.copy 0xF#4 y, AluOp.pass, s.reg y), (.or 0xF#4 y, .or, s.reg y),
        (.and 0xF#4 y, .and, s.reg y), (.xor 0xF#4 y, .xor, s.reg y), (.loadImm 0xF#4 nn, .pass, nn),
        (.addImm 0xF#4 nn, .addi, nn)] →
      ∃ t, exec i s = .next t ∧ t.reg 0xF#4 = (alu op (s.reg 0xF#4) b).1)

/-- R120 (derived by the spec; SHL's flag as 0 or 1 is D8, log 5): SHR and then SHL of one register; with `X = 0xF` the
flags alone are left in it (R119). -/
def Obligations.ShiftRoundTripLosesBitZero : Prop :=
  ∀ (x y z : Nibble) (s : State), ∃ t u, exec (.shr x y) s = .next t ∧ exec (.shl x z) t = .next u ∧
    t.reg 0xF#4 = s.reg x &&& 0x01#8 ∧ u.reg 0xF#4 = 0x00#8 ∧ (x ≠ 0xF#4 → u.reg x = s.reg x &&& 0xFE#8)

/-! ### Index, no-op, unrecognized and delegated words -/

/-- R125: LOAD-I. -/
def Obligations.LoadIWritesNNN : Prop :=
  (∀ (p : Params) (w : Word), fieldOp w = 0xA#4 → decodeWord p w = .loadI (fieldNNN w)) ∧
  ∀ (nnn : Addr) (s : State), ∃ t, exec (.loadI nnn) s = .next t ∧ t.i = nnn ∧ t.pc = s.pcNext ∧
    (∀ r, t.reg r = s.reg r) ∧ t.depth = s.depth ∧ (∀ k, t.slot k = s.slot k) ∧ (∀ a, t.byte a = s.byte a) ∧
    t.notice = s.notice

/-- R122: NOP0. -/
def Obligations.Nop0OnlyAdvances : Prop :=
  (∀ p : Params, decodeWord p 0x0000#16 = .nop0) ∧
  ∀ s : State, ∃ t, exec .nop0 s = .next t ∧ t.pc = s.pcNext ∧ KeepsAllBut [] s t

/-- R70: an unrecognized word, of family 0x0, 0x8, or 0x5 and 0x9 under the strict option, executes as `PC <- PCnext` and
changes nothing else. -/
def Obligations.UnrecognizedWordsOnlyAdvance : Prop :=
  ∀ (i : Instr) (s : State), i.isUnrecognized = true →
    ∃ t, exec i s = .next t ∧ t.pc = s.pcNext ∧ KeepsAllBut [] s t

/-- R121, R126, R130: CLEAR and every instruction of the families 0xC to 0xF advances PC and raises the notice with its
word, and changes nothing else; none blocks. The notice is the spec's decision D9 (log 6, 7). -/
def Obligations.DelegatedWordsOnlyRaiseTheNotice : Prop :=
  ∀ (i : Instr) (s : State), i.isDelegated = true →
    ∃ t, exec i s = .next t ∧ t.pc = s.pcNext ∧ t.notice = some (encode i) ∧ KeepsAllBut [] s.clearNotice t.clearNotice

/-! ### The whole machine -/

/-- R23: which instruction writes which general register, and which it reads: a register outside `regsWritten` is left
alone, and the value of one outside `regsRead` has no effect on the rest. -/
def Obligations.RegistersReadAndWritten : Prop :=
  ∀ (i : Instr) (s : State) (r : Nibble),
    (r ∉ regsWritten i → ∀ t, exec i s = .next t → t.reg r = s.reg r) ∧
    (r ∉ regsRead i → ∀ b, exec i (s.setReg r b) =
      mapNext (fun t => if r ∈ regsWritten i then t else t.setReg r b) (exec i s))

/-- R46, R55, R128: no STEP changes any byte of memory, so a program cannot change its own code. -/
def Obligations.NoStepWritesMemory : Prop :=
  ∀ (p : Params) (s t : State), stepWith p s = .next t → ∀ a, t.byte a = s.byte a

/-- R33 (derived by the spec): only RESET and the instruction ANNN change I. -/
def Obligations.OnlyResetAndLoadIChangeI : Prop :=
  ∀ (p : Params) (s t : State) (q : Request) (r : Result), transact p s q = .ok (t, r) →
    t.i = s.i ∨ q = .reset ∨ (q = .step ∧ ∃ w, fetch s = .ok w ∧ decodeWord p w = .loadI t.i)

/-- R32: no instruction reads I: another value in it changes nothing but I itself, and not even that in LOAD-I. -/
def Obligations.NoInstructionReadsI : Prop :=
  (∀ (i : Instr) (s : State) (a : Addr), (∀ nnn, i ≠ .loadI nnn) →
    exec i (s.setI a) = mapNext (fun t => t.setI a) (exec i s)) ∧
  ∀ (nnn : Addr) (s : State) (a : Addr), exec (.loadI nnn) (s.setI a) = exec (.loadI nnn) s

/-- R36 (the spec's decision D10, log 8): no RESET, LOAD or STEP sees a slot above SP: over any sequence of these three,
states that differ in such slots alone give the same results, or the same refusal, and differ in such slots alone after it.
OBSERVE, the fourth operation, shows every slot (R80). -/
def Obligations.ResetLoadStepNeverSeeSlotsAboveSp : Prop :=
  ∀ (p : Params) (s t : State) (qs : List Request), AgreeBelowSP s t →
    (∀ r, runRequests p s qs = .error r ↔ runRequests p t qs = .error r) ∧
    ∀ s' results, runRequests p s qs = .ok (s', results) →
      ∃ t', runRequests p t qs = .ok (t', results) ∧ AgreeBelowSP s' t'

/-- The invariant of Safety.lean: from every state that has it, every transaction, and every STEP of the host's machine,
gives a state that has it. -/
def Obligations.EveryOperationKeepsTheInvariant : Prop :=
  (∀ (p : Params) (s t : State) (q : Request) (r : Result), s.Inv → transact p s q = .ok (t, r) → t.Inv) ∧
  ∀ s t : State, s.Inv → step s = .next t → t.Inv

/-- The invariant holds at reset. -/
def Obligations.ResetHasTheInvariant : Prop := State.Inv State.reset

/-- R157 (b) (the spec's decision D23): a STEP maps the core's state to itself exactly when the word at PC is a JUMP to
PC or a JUMP-OFFSET that comes to PC. -/
def Obligations.FixedPointsAreSelfJumps : Prop :=
  ∀ (p : Params) (s : State), FixedPoint p s ↔
    ∃ w, fetch s = .ok w ∧
      ((fieldOp w = 0x1#4 ∧ fieldNNN w = s.pc) ∨
       (fieldOp w = 0xB#4 ∧ ((s.reg 0x0#4).toNat + (fieldNNN w).toNat) % 0x1000 = s.pc.toNat))

/-- R90 (derived by the spec; the wrap is D4, log 2), as a step lemma: where every byte of memory reads 0x00 and PC is
even, a STEP is NOP0, and leaves such a state again, so that any number of STEPs answer OK and PC climbs by 2 each.
State.reset is such a state. -/
def Obligations.ZeroMemoryStepsAreNop0 : Prop :=
  (∀ (p : Params) (s : State), (∀ a, s.byte a = 0x00#8) → s.pc.toNat % 2 = 0 → ∃ t,
    stepWith p s = .next t ∧ t.pc.toNat = (s.pc.toNat + 2) % 0x1000 ∧ KeepsAllBut [] s.clearNotice t ∧
    (∀ a, t.byte a = 0x00#8) ∧ t.pc.toNat % 2 = 0) ∧
  (∀ (p : Params) (s : State) (n : Nat), (∀ a, s.byte a = 0x00#8) → s.pc.toNat % 2 = 0 → ∃ t,
    runRequests p s (List.replicate n .step) = .ok (t, List.replicate n .ok) ∧
    SameCore t (s.setPc (BitVec.ofNat 12 (s.pc.toNat + 2 * n)))) ∧
  (∀ a, State.reset.byte a = 0x00#8) ∧ State.reset.pc.toNat % 2 = 0
end

