-- ==== Sys2Proof/Laws/Decode.lean ====
section
/-! SUPPORT. Words and their fields as numbers (R61), the fields of a word built in each of the forms of R62, and a word
from its fields. -/

namespace Sys2Proof

/-! ### Appending as arithmetic -/

theorem toNat_append_eq {m n : Nat} (a : BitVec m) (b : BitVec n) :
    (a ++ b).toNat = a.toNat * 2 ^ n + b.toNat := by
  rw [BitVec.toNat_append, ← Nat.shiftLeft_add_eq_or_of_lt b.isLt, Nat.shiftLeft_eq]

theorem wordA_toNat (op : Nibble) (nnn : Addr) : (wordA op nnn).toNat = op.toNat * 4096 + nnn.toNat :=
  toNat_append_eq op nnn

theorem wordRI_toNat (op x : Nibble) (nn : Byte) :
    (wordRI op x nn).toNat = op.toNat * 4096 + x.toNat * 256 + nn.toNat := by
  have h := toNat_append_eq (op ++ x) nn
  rw [toNat_append_eq op x] at h
  exact h.trans (by ring)

theorem wordRR_toNat (op x y n : Nibble) :
    (wordRR op x y n).toNat = op.toNat * 4096 + x.toNat * 256 + y.toNat * 16 + n.toNat := by
  have h := toNat_append_eq (op ++ x ++ y) n
  rw [toNat_append_eq (op ++ x) y, toNat_append_eq op x] at h
  exact h.trans (by ring)

theorem wordOfBytes_toNat (high low : Byte) : (wordOfBytes high low).toNat = high.toNat * 256 + low.toNat :=
  toNat_append_eq high low

/-! ### Fields as numbers -/

theorem fieldOp_toNat (w : Word) : (fieldOp w).toNat = w.toNat / 4096 := by
  have := w.isLt
  simp only [fieldOp, BitVec.extractLsb'_toNat, Nat.shiftRight_eq_div_pow]
  omega

theorem fieldX_toNat (w : Word) : (fieldX w).toNat = w.toNat / 256 % 16 := by
  simp only [fieldX, BitVec.extractLsb'_toNat, Nat.shiftRight_eq_div_pow]

theorem fieldY_toNat (w : Word) : (fieldY w).toNat = w.toNat / 16 % 16 := by
  simp only [fieldY, BitVec.extractLsb'_toNat, Nat.shiftRight_eq_div_pow]

theorem fieldN_toNat (w : Word) : (fieldN w).toNat = w.toNat % 16 := by
  simp only [fieldN, BitVec.extractLsb'_toNat, Nat.shiftRight_eq_div_pow]
  norm_num

theorem fieldNN_toNat (w : Word) : (fieldNN w).toNat = w.toNat % 256 := by
  simp only [fieldNN, BitVec.extractLsb'_toNat, Nat.shiftRight_eq_div_pow]
  norm_num

theorem fieldNNN_toNat (w : Word) : (fieldNNN w).toNat = w.toNat % 4096 := by
  simp only [fieldNNN, BitVec.extractLsb'_toNat, Nat.shiftRight_eq_div_pow]
  norm_num

/-! ### Form A -/

@[simp] theorem fieldOp_wordA (op : Nibble) (nnn : Addr) : fieldOp (wordA op nnn) = op :=
  BitVec.eq_of_toNat_eq (by rw [fieldOp_toNat, wordA_toNat]; omega)

@[simp] theorem fieldNNN_wordA (op : Nibble) (nnn : Addr) : fieldNNN (wordA op nnn) = nnn :=
  BitVec.eq_of_toNat_eq (by rw [fieldNNN_toNat, wordA_toNat]; omega)

/-- The low byte of a form A word, for family 0 (R68). -/
@[simp] theorem fieldNN_wordA (op : Nibble) (nnn : Addr) : fieldNN (wordA op nnn) = nnn.setWidth 8 :=
  BitVec.eq_of_toNat_eq (by rw [fieldNN_toNat, wordA_toNat, BitVec.toNat_setWidth]; omega)

/-! ### Form RI -/

@[simp] theorem fieldOp_wordRI (op x : Nibble) (nn : Byte) : fieldOp (wordRI op x nn) = op :=
  BitVec.eq_of_toNat_eq (by rw [fieldOp_toNat, wordRI_toNat]; omega)

@[simp] theorem fieldX_wordRI (op x : Nibble) (nn : Byte) : fieldX (wordRI op x nn) = x :=
  BitVec.eq_of_toNat_eq (by rw [fieldX_toNat, wordRI_toNat]; omega)

@[simp] theorem fieldNN_wordRI (op x : Nibble) (nn : Byte) : fieldNN (wordRI op x nn) = nn :=
  BitVec.eq_of_toNat_eq (by rw [fieldNN_toNat, wordRI_toNat]; omega)

/-! ### Form RR -/

@[simp] theorem fieldOp_wordRR (op x y n : Nibble) : fieldOp (wordRR op x y n) = op :=
  BitVec.eq_of_toNat_eq (by rw [fieldOp_toNat, wordRR_toNat]; omega)

@[simp] theorem fieldX_wordRR (op x y n : Nibble) : fieldX (wordRR op x y n) = x :=
  BitVec.eq_of_toNat_eq (by rw [fieldX_toNat, wordRR_toNat]; omega)

@[simp] theorem fieldY_wordRR (op x y n : Nibble) : fieldY (wordRR op x y n) = y :=
  BitVec.eq_of_toNat_eq (by rw [fieldY_toNat, wordRR_toNat]; omega)

@[simp] theorem fieldN_wordRR (op x y n : Nibble) : fieldN (wordRR op x y n) = n :=
  BitVec.eq_of_toNat_eq (by rw [fieldN_toNat, wordRR_toNat]; omega)

/-! ### A word is its fields -/

theorem wordA_fields (w : Word) : wordA (fieldOp w) (fieldNNN w) = w :=
  BitVec.eq_of_toNat_eq (by rw [wordA_toNat, fieldOp_toNat, fieldNNN_toNat]; omega)

theorem wordRI_fields (w : Word) : wordRI (fieldOp w) (fieldX w) (fieldNN w) = w :=
  BitVec.eq_of_toNat_eq (by rw [wordRI_toNat, fieldOp_toNat, fieldX_toNat, fieldNN_toNat]; omega)

theorem wordRR_fields (w : Word) : wordRR (fieldOp w) (fieldX w) (fieldY w) (fieldN w) = w :=
  BitVec.eq_of_toNat_eq (by
    rw [wordRR_toNat, fieldOp_toNat, fieldX_toNat, fieldY_toNat, fieldN_toNat]; omega)

/-! ### The bytes of a word (R42) -/

@[simp] theorem wordOfBytes_bytes (w : Word) : wordOfBytes (w.extractLsb' 8 8) (w.extractLsb' 0 8) = w := by
  apply BitVec.eq_of_toNat_eq
  have := w.isLt
  simp only [wordOfBytes_toNat, BitVec.extractLsb'_toNat, Nat.shiftRight_eq_div_pow]
  omega

/-- The decoder reads a word's bytes back to the word. -/
theorem decodeBytes_bytesOfWord (p : Params) (w : Word) (rest : List Byte) :
    decodeBytes p (bytesOfWord w ++ rest) = .ok (decodeWord p w, rest) := by
  simp [decodeBytes, bytesOfWord]

end Sys2Proof
end

