-- ==== Sys2Proof/Laws/State.lean ====
section
/-! SUPPORT. One lemma per field per update of State, and the register file's laws. -/

namespace Sys2Proof.Machine

/-! ### setReg -/

@[simp] theorem State.setReg_pc (s : State) (r : Nibble) (b : Byte) : (s.setReg r b).pc = s.pc := rfl
@[simp] theorem State.setReg_i (s : State) (r : Nibble) (b : Byte) : (s.setReg r b).i = s.i := rfl
@[simp] theorem State.setReg_stack (s : State) (r : Nibble) (b : Byte) : (s.setReg r b).stack = s.stack := rfl
@[simp] theorem State.setReg_depth (s : State) (r : Nibble) (b : Byte) : (s.setReg r b).depth = s.depth := rfl
@[simp] theorem State.setReg_mem (s : State) (r : Nibble) (b : Byte) : (s.setReg r b).mem = s.mem := rfl
@[simp] theorem State.setReg_notice (s : State) (r : Nibble) (b : Byte) : (s.setReg r b).notice = s.notice := rfl
@[simp] theorem State.setReg_pcNext (s : State) (r : Nibble) (b : Byte) : (s.setReg r b).pcNext = s.pcNext := rfl
@[simp] theorem State.setReg_slot (s : State) (r : Nibble) (b : Byte) (k : Nibble) :
    (s.setReg r b).slot k = s.slot k := rfl
@[simp] theorem State.setReg_byte (s : State) (r : Nibble) (b : Byte) (a : Addr) :
    (s.setReg r b).byte a = s.byte a := rfl

/-- A register reads as what was last written to it. -/
@[simp] theorem State.reg_setReg_self (s : State) (r : Nibble) (b : Byte) : (s.setReg r b).reg r = b := by
  simp [State.reg, State.setReg]

/-- A write leaves every other register alone. -/
theorem State.reg_setReg_of_ne (s : State) {r q : Nibble} (b : Byte) (h : q ≠ r) :
    (s.setReg r b).reg q = s.reg q := by
  have : r.toNat ≠ q.toNat := fun e => h (BitVec.eq_of_toNat_eq e.symm)
  simp [State.reg, State.setReg, this]

theorem State.reg_setReg (s : State) (r q : Nibble) (b : Byte) :
    (s.setReg r b).reg q = if q = r then b else s.reg q := by
  split
  · next h => rw [h, State.reg_setReg_self]
  · next h => exact s.reg_setReg_of_ne b h

/-- The later of two writes to one register wins (R12). -/
@[simp] theorem State.setReg_setReg_self (s : State) (r : Nibble) (b c : Byte) :
    (s.setReg r b).setReg r c = s.setReg r c := by
  simp [State.setReg]

theorem State.setReg_comm (s : State) {r q : Nibble} (b c : Byte) (h : r ≠ q) :
    (s.setReg r b).setReg q c = (s.setReg q c).setReg r b := by
  have : r.toNat ≠ q.toNat := fun e => h (BitVec.eq_of_toNat_eq e)
  simp [State.setReg, Vector.set_comm _ _ this]

/-! ### setFlag -/

@[simp] theorem State.setFlag_none (s : State) : s.setFlag none = s := rfl
@[simp] theorem State.setFlag_some (s : State) (f : Flag) : s.setFlag (some f) = s.setReg flagReg (f.setWidth 8) := rfl

/-! ### setI -/

@[simp] theorem State.setI_v (s : State) (a : Addr) : (s.setI a).v = s.v := rfl
@[simp] theorem State.setI_pc (s : State) (a : Addr) : (s.setI a).pc = s.pc := rfl
@[simp] theorem State.setI_i (s : State) (a : Addr) : (s.setI a).i = a := rfl
@[simp] theorem State.setI_stack (s : State) (a : Addr) : (s.setI a).stack = s.stack := rfl
@[simp] theorem State.setI_depth (s : State) (a : Addr) : (s.setI a).depth = s.depth := rfl
@[simp] theorem State.setI_mem (s : State) (a : Addr) : (s.setI a).mem = s.mem := rfl
@[simp] theorem State.setI_notice (s : State) (a : Addr) : (s.setI a).notice = s.notice := rfl
@[simp] theorem State.setI_pcNext (s : State) (a : Addr) : (s.setI a).pcNext = s.pcNext := rfl
@[simp] theorem State.setI_reg (s : State) (a : Addr) (r : Nibble) : (s.setI a).reg r = s.reg r := rfl
@[simp] theorem State.setI_slot (s : State) (a : Addr) (k : Nibble) : (s.setI a).slot k = s.slot k := rfl
@[simp] theorem State.setI_byte (s : State) (a b : Addr) : (s.setI a).byte b = s.byte b := rfl

/-! ### setPc -/

@[simp] theorem State.setPc_v (s : State) (a : Addr) : (s.setPc a).v = s.v := rfl
@[simp] theorem State.setPc_pc (s : State) (a : Addr) : (s.setPc a).pc = a := rfl
@[simp] theorem State.setPc_i (s : State) (a : Addr) : (s.setPc a).i = s.i := rfl
@[simp] theorem State.setPc_stack (s : State) (a : Addr) : (s.setPc a).stack = s.stack := rfl
@[simp] theorem State.setPc_depth (s : State) (a : Addr) : (s.setPc a).depth = s.depth := rfl
@[simp] theorem State.setPc_mem (s : State) (a : Addr) : (s.setPc a).mem = s.mem := rfl
@[simp] theorem State.setPc_notice (s : State) (a : Addr) : (s.setPc a).notice = s.notice := rfl
@[simp] theorem State.setPc_reg (s : State) (a : Addr) (r : Nibble) : (s.setPc a).reg r = s.reg r := rfl
@[simp] theorem State.setPc_slot (s : State) (a : Addr) (k : Nibble) : (s.setPc a).slot k = s.slot k := rfl
@[simp] theorem State.setPc_byte (s : State) (a b : Addr) : (s.setPc a).byte b = s.byte b := rfl
@[simp] theorem State.setPc_setPc (s : State) (a b : Addr) : (s.setPc a).setPc b = s.setPc b := rfl

/-! ### advance -/

@[simp] theorem State.advance_v (s : State) : s.advance.v = s.v := rfl
@[simp] theorem State.advance_pc (s : State) : s.advance.pc = s.pcNext := rfl
@[simp] theorem State.advance_i (s : State) : s.advance.i = s.i := rfl
@[simp] theorem State.advance_stack (s : State) : s.advance.stack = s.stack := rfl
@[simp] theorem State.advance_depth (s : State) : s.advance.depth = s.depth := rfl
@[simp] theorem State.advance_mem (s : State) : s.advance.mem = s.mem := rfl
@[simp] theorem State.advance_notice (s : State) : s.advance.notice = s.notice := rfl
@[simp] theorem State.advance_reg (s : State) (r : Nibble) : s.advance.reg r = s.reg r := rfl
@[simp] theorem State.advance_slot (s : State) (k : Nibble) : s.advance.slot k = s.slot k := rfl
@[simp] theorem State.advance_byte (s : State) (a : Addr) : s.advance.byte a = s.byte a := rfl

/-! ### skipIf: only PC changes -/

theorem State.skipIf_eq_setPc (s : State) (c : Bool) :
    s.skipIf c = s.setPc (if c then s.pc + 4#12 else s.pcNext) := by cases c <;> rfl

@[simp] theorem State.skipIf_pc (s : State) (c : Bool) :
    (s.skipIf c).pc = if c then s.pc + 4#12 else s.pcNext := by cases c <;> rfl
@[simp] theorem State.skipIf_v (s : State) (c : Bool) : (s.skipIf c).v = s.v := by cases c <;> rfl
@[simp] theorem State.skipIf_i (s : State) (c : Bool) : (s.skipIf c).i = s.i := by cases c <;> rfl
@[simp] theorem State.skipIf_stack (s : State) (c : Bool) : (s.skipIf c).stack = s.stack := by cases c <;> rfl
@[simp] theorem State.skipIf_depth (s : State) (c : Bool) : (s.skipIf c).depth = s.depth := by cases c <;> rfl
@[simp] theorem State.skipIf_mem (s : State) (c : Bool) : (s.skipIf c).mem = s.mem := by cases c <;> rfl
@[simp] theorem State.skipIf_notice (s : State) (c : Bool) : (s.skipIf c).notice = s.notice := by cases c <;> rfl
@[simp] theorem State.skipIf_reg (s : State) (c : Bool) (r : Nibble) : (s.skipIf c).reg r = s.reg r := by
  cases c <;> rfl
@[simp] theorem State.skipIf_slot (s : State) (c : Bool) (k : Nibble) : (s.skipIf c).slot k = s.slot k := by
  cases c <;> rfl
@[simp] theorem State.skipIf_byte (s : State) (c : Bool) (a : Addr) : (s.skipIf c).byte a = s.byte a := by
  cases c <;> rfl

/-! ### The notice -/

@[simp] theorem State.clearNotice_v (s : State) : s.clearNotice.v = s.v := rfl
@[simp] theorem State.clearNotice_pc (s : State) : s.clearNotice.pc = s.pc := rfl
@[simp] theorem State.clearNotice_i (s : State) : s.clearNotice.i = s.i := rfl
@[simp] theorem State.clearNotice_stack (s : State) : s.clearNotice.stack = s.stack := rfl
@[simp] theorem State.clearNotice_depth (s : State) : s.clearNotice.depth = s.depth := rfl
@[simp] theorem State.clearNotice_mem (s : State) : s.clearNotice.mem = s.mem := rfl
@[simp] theorem State.clearNotice_notice (s : State) : s.clearNotice.notice = none := rfl
@[simp] theorem State.clearNotice_pcNext (s : State) : s.clearNotice.pcNext = s.pcNext := rfl
@[simp] theorem State.clearNotice_reg (s : State) (r : Nibble) : s.clearNotice.reg r = s.reg r := rfl
@[simp] theorem State.clearNotice_slot (s : State) (k : Nibble) : s.clearNotice.slot k = s.slot k := rfl
@[simp] theorem State.clearNotice_byte (s : State) (a : Addr) : s.clearNotice.byte a = s.byte a := rfl
@[simp] theorem State.clearNotice_clearNotice (s : State) : s.clearNotice.clearNotice = s.clearNotice := rfl

@[simp] theorem State.raiseNotice_v (s : State) (w : Word) : (s.raiseNotice w).v = s.v := rfl
@[simp] theorem State.raiseNotice_pc (s : State) (w : Word) : (s.raiseNotice w).pc = s.pc := rfl
@[simp] theorem State.raiseNotice_i (s : State) (w : Word) : (s.raiseNotice w).i = s.i := rfl
@[simp] theorem State.raiseNotice_stack (s : State) (w : Word) : (s.raiseNotice w).stack = s.stack := rfl
@[simp] theorem State.raiseNotice_depth (s : State) (w : Word) : (s.raiseNotice w).depth = s.depth := rfl
@[simp] theorem State.raiseNotice_mem (s : State) (w : Word) : (s.raiseNotice w).mem = s.mem := rfl
@[simp] theorem State.raiseNotice_notice (s : State) (w : Word) : (s.raiseNotice w).notice = some w := rfl
@[simp] theorem State.raiseNotice_pcNext (s : State) (w : Word) : (s.raiseNotice w).pcNext = s.pcNext := rfl

@[simp] theorem State.delegate_v (s : State) (w : Word) : (s.delegate w).v = s.v := rfl
@[simp] theorem State.delegate_pc (s : State) (w : Word) : (s.delegate w).pc = s.pcNext := rfl
@[simp] theorem State.delegate_i (s : State) (w : Word) : (s.delegate w).i = s.i := rfl
@[simp] theorem State.delegate_stack (s : State) (w : Word) : (s.delegate w).stack = s.stack := rfl
@[simp] theorem State.delegate_depth (s : State) (w : Word) : (s.delegate w).depth = s.depth := rfl
@[simp] theorem State.delegate_mem (s : State) (w : Word) : (s.delegate w).mem = s.mem := rfl
@[simp] theorem State.delegate_notice (s : State) (w : Word) : (s.delegate w).notice = some w := rfl
@[simp] theorem State.delegate_reg (s : State) (w : Word) (r : Nibble) : (s.delegate w).reg r = s.reg r := rfl
@[simp] theorem State.delegate_slot (s : State) (w : Word) (k : Nibble) : (s.delegate w).slot k = s.slot k := rfl
@[simp] theorem State.delegate_byte (s : State) (w : Word) (a : Addr) : (s.delegate w).byte a = s.byte a := rfl

/-! ### Equality of states by their fields and registers -/

/-- Two register files with the same registers are equal. -/
theorem State.v_ext {s t : State} (h : ∀ r, s.reg r = t.reg r) : s.v = t.v := by
  ext k hk : 1
  have e : (BitVec.ofNat 4 k).toNat = k := by
    rw [BitVec.toNat_ofNat]; exact Nat.mod_eq_of_lt hk
  simpa [State.reg, e] using h (BitVec.ofNat 4 k)

/-- Two stacks with the same slots are equal. -/
theorem State.stack_ext {s t : State} (h : ∀ k, s.slot k = t.slot k) : s.stack = t.stack := by
  ext k hk : 1
  have e : (BitVec.ofNat 4 k).toNat = k := by
    rw [BitVec.toNat_ofNat]; exact Nat.mod_eq_of_lt hk
  simpa [State.slot, e] using h (BitVec.ofNat 4 k)

end Sys2Proof.Machine
end

