-- ==== Sys2Proof/Laws/Memory.lean ====
section
/-! SUPPORT. The laws of memory: every operation keeps the canonical form, a read after a write, and equality of
canonical memories by their reads. -/

namespace Sys2Proof.Machine

namespace Memory

/-- A cell's tail has only higher keys, so a lower key reads as unlisted. -/
theorem lookup_of_forall_lt {m : Memory} {a : Nat} (h : ∀ c ∈ m, a < c.1) : lookup m a = unlisted := by
  induction m with
  | nil => rfl
  | cons c m ih =>
    obtain ⟨k, b⟩ := c
    have hk : a < k := h (k, b) (by simp)
    rw [lookup, if_neg (by omega)]
    exact ih fun d hd => h d (by simp [hd])

/-- Every key of the result is an old key or the one written. -/
theorem mem_insert {m : Memory} {a : Nat} {b : Byte} {c : Host.Cell} (h : c ∈ insert m a b) :
    c ∈ m ∨ (c = (a, b) ∧ b ≠ unlisted) := by
  induction m with
  | nil =>
    simp only [insert] at h
    split at h
    · simp at h
    · next hb => exact .inr ⟨by simpa using h, hb⟩
  | cons d m ih =>
    obtain ⟨k, e⟩ := d
    simp only [insert] at h
    split at h
    · split at h
      · exact .inl h
      · next hb =>
        rcases List.mem_cons.1 h with h | h
        · exact .inr ⟨h, hb⟩
        · exact .inl h
    · split at h
      · split at h
        · exact .inl (by simp [h])
        · next hb =>
          rcases List.mem_cons.1 h with h | h
          · exact .inr ⟨h, hb⟩
          · exact .inl (by simp [h])
      · rcases List.mem_cons.1 h with h | h
        · exact .inl (by simp [h])
        · rcases ih h with h | h
          · exact .inl (by simp [h])
          · exact .inr h

/-- Insertion keeps the keys rising. -/
theorem insert_pairwise {m : Memory} (hm : m.Pairwise (fun c d => c.1 < d.1)) (a : Nat) (b : Byte) :
    (insert m a b).Pairwise (fun c d => c.1 < d.1) := by
  induction m with
  | nil => simp only [insert]; split <;> simp
  | cons d m ih =>
    obtain ⟨k, e⟩ := d
    rw [List.pairwise_cons] at hm
    simp only [insert]
    split
    · next hak =>
      split
      · exact List.pairwise_cons.2 hm
      · refine List.pairwise_cons.2 ⟨fun c hc => ?_, List.pairwise_cons.2 hm⟩
        rcases List.mem_cons.1 hc with rfl | hc
        · exact hak
        · exact lt_trans hak (hm.1 c hc)
    · split
      · next hak =>
        split
        · exact hm.2
        · exact List.pairwise_cons.2 ⟨fun c hc => hak ▸ hm.1 c hc, hm.2⟩
      · refine List.pairwise_cons.2 ⟨fun c hc => ?_, ih hm.2⟩
        rcases mem_insert hc with hc | ⟨rfl, -⟩
        · exact hm.1 c hc
        · show k < a
          omega

/-- A write keeps the canonical form. -/
theorem write_wf {m : Memory} (hm : m.wf) (a : Addr) (b : Byte) : (m.write a b).wf := by
  refine ⟨insert_pairwise hm.1 _ _, fun c hc => ?_⟩
  rcases mem_insert hc with hc | ⟨rfl, hb⟩
  · exact hm.2 c hc
  · exact ⟨a.isLt, hb⟩

/-- Writing a run of bytes keeps the canonical form. -/
theorem writeBytes_wf {m : Memory} (hm : m.wf) (a : Addr) (bs : List Byte) : (m.writeBytes a bs).wf := by
  induction bs generalizing m a with
  | nil => exact hm
  | cons b bs ih => exact ih (write_wf hm a b) (a + 1)

/-- The memory after RESET is canonical. -/
theorem reset_wf : State.reset.mem.wf := by decide

theorem lookup_insert {m : Memory} (hm : m.Pairwise (fun c d => c.1 < d.1)) (a : Nat) (b : Byte) (x : Nat) :
    lookup (insert m a b) x = if x = a then b else lookup m x := by
  induction m with
  | nil =>
    simp only [insert]
    split
    · next hb => simp [lookup, hb]
    · simp only [lookup, eq_comm]
  | cons d m ih =>
    obtain ⟨k, e⟩ := d
    rw [List.pairwise_cons] at hm
    simp only [insert]
    split
    · next hak =>
      split
      · next hb =>
        split
        · next hx =>
          rw [hb, hx]
          refine lookup_of_forall_lt fun c hc => ?_
          rcases List.mem_cons.1 hc with rfl | hc
          · exact hak
          · exact lt_trans hak (hm.1 c hc)
        · rfl
      · rw [lookup]
        simp only [eq_comm]
    · split
      · next hak =>
        subst hak
        split
        · next hb =>
          by_cases hx : x = a
          · rw [if_pos hx, hb, hx]; exact lookup_of_forall_lt fun c hc => hm.1 c hc
          · rw [if_neg hx, lookup, if_neg (Ne.symm hx)]
        · by_cases hx : x = a <;> simp [lookup, hx, Ne.symm]
      · next h1 h2 =>
        rw [lookup, lookup, ih hm.2]
        by_cases hk : k = x
        · rw [if_pos hk, if_pos hk, if_neg (by omega)]
        · rw [if_neg hk, if_neg hk]

/-- A read after a write: the byte written at its address, and every other address as before. -/
theorem read_write {m : Memory} (hm : m.wf) (a : Addr) (b : Byte) (x : Addr) :
    (m.write a b).read x = if x = a then b else m.read x := by
  have h := lookup_insert hm.1 a.toNat b x.toNat
  simp only [read, write, h, BitVec.toNat_inj]

/-- Canonical memories that read alike at every address are the same list. -/
theorem eq_of_lookup {m n : Memory} (hm : m.wf) (hn : n.wf) (h : ∀ a, lookup m a = lookup n a) : m = n := by
  induction m generalizing n with
  | nil =>
    cases n with
    | nil => rfl
    | cons d n =>
      have := h d.1
      rw [lookup, lookup, if_pos rfl] at this
      exact absurd this.symm (hn.2 d (by simp)).2
  | cons c m ih =>
    cases n with
    | nil =>
      have := h c.1
      rw [lookup, lookup, if_pos rfl] at this
      exact absurd this (hm.2 c (by simp)).2
    | cons d n =>
      obtain ⟨k, b⟩ := c
      obtain ⟨l, e⟩ := d
      have hm1 := List.pairwise_cons.1 hm.1
      have hn1 := List.pairwise_cons.1 hn.1
      have hb := (hm.2 (k, b) (by simp)).2
      have he := (hn.2 (l, e) (by simp)).2
      have hkl : k = l := by
        rcases lt_trichotomy k l with hlt | heq | hgt
        · have := h k
          rw [lookup, if_pos rfl, lookup_of_forall_lt (m := (l, e) :: n)] at this
          · exact absurd this hb
          · intro c hc
            rcases List.mem_cons.1 hc with rfl | hc
            · exact hlt
            · exact lt_trans hlt (hn1.1 c hc)
        · exact heq
        · have := h l
          rw [lookup_of_forall_lt (m := (k, b) :: m), lookup, if_pos rfl] at this
          · exact absurd this.symm he
          · intro c hc
            rcases List.mem_cons.1 hc with rfl | hc
            · exact hgt
            · exact lt_trans hgt (hm1.1 c hc)
      subst hkl
      have hbe : b = e := by simpa [lookup] using h k
      subst hbe
      congr 1
      refine ih ⟨hm1.2, fun c hc => hm.2 c (by simp [hc])⟩ ⟨hn1.2, fun c hc => hn.2 c (by simp [hc])⟩ fun a => ?_
      by_cases ha : k = a
      · subst ha
        rw [lookup_of_forall_lt hm1.1, lookup_of_forall_lt hn1.1]
      · simpa [lookup, ha] using h a

/-- A key outside memory is not listed. -/
theorem lookup_of_ge {m : Memory} (hm : m.wf) {a : Nat} (ha : memorySize ≤ a) : lookup m a = unlisted := by
  induction m with
  | nil => rfl
  | cons c m ih =>
    obtain ⟨k, b⟩ := c
    have hk : k < memorySize := (hm.2 (k, b) (by simp)).1
    rw [lookup, if_neg (by omega)]
    exact ih ⟨(List.pairwise_cons.1 hm.1).2, fun d hd => hm.2 d (by simp [hd])⟩

/-- Canonical memories that read alike at every address of the core are the same list. -/
theorem eq_of_read {m n : Memory} (hm : m.wf) (hn : n.wf) (h : ∀ a : Addr, m.read a = n.read a) : m = n := by
  refine eq_of_lookup hm hn fun a => ?_
  by_cases ha : a < memorySize
  · have e : (BitVec.ofNat 12 a).toNat = a := by
      rw [BitVec.toNat_ofNat]; exact Nat.mod_eq_of_lt ha
    simpa [read, e] using h (BitVec.ofNat 12 a)
  · rw [lookup_of_ge hm (by omega), lookup_of_ge hn (by omega)]

end Memory

/-- `placeAtPc` keeps the canonical form. -/
theorem placeAtPc_wf {s : State} (h : s.mem.wf) (w : Word) : (placeAtPc s w).mem.wf := by
  unfold placeAtPc
  split
  · exact h
  · exact Memory.writeBytes_wf h _ _

/-- LOAD keeps the canonical form. -/
theorem load_wf {bytes : List Byte} {s t : State} (h : load bytes s = .ok t) (hs : s.mem.wf) : t.mem.wf := by
  unfold load at h
  split at h
  · cases h
  · cases h
    exact Memory.writeBytes_wf hs _ _

end Sys2Proof.Machine
end

