-- ==== Sys2Proof/Laws/Ops.lean ====
section
/-! SUPPORT. One lemma for each shared operation: everything it can do. -/

namespace Sys2Proof.Machine

/-! ### The answer of an operation -/

@[simp] theorem answer_ok (t : State) : answer (.ok t) = .next t := rfl
@[simp] theorem answer_error (e : Fault) : answer (.error e) = .fault e := rfl

/-! ### The call stack -/

/-- `Push` with room: the next slot holds the address, and nothing else but SP changes (R35). -/
theorem push_ok {s t : State} {a : Addr} (h : push a s = .ok t) :
    ∃ hd : s.depth.val < 16, t.depth.val = s.depth.val + 1 ∧ t.stack = s.stack.set s.depth.val a hd ∧
      t.v = s.v ∧ t.pc = s.pc ∧ t.i = s.i ∧ t.mem = s.mem ∧ t.notice = s.notice := by
  unfold push at h
  split at h
  · next hd => cases h; exact ⟨hd, rfl, rfl, rfl, rfl, rfl, rfl, rfl⟩
  · cases h

theorem push_of_lt {s : State} (a : Addr) (h : s.depth.val < 16) :
    push a s = .ok { s with stack := s.stack.set s.depth.val a h, depth := ⟨s.depth.val + 1, Nat.succ_lt_succ h⟩ } := by
  rw [push, dif_pos h]

/-- `Push` raises StackOverflow exactly when `SP = 15` (R35). -/
theorem push_error {s : State} {a : Addr} {e : Fault} :
    push a s = .error e ↔ e = .stackOverflow ∧ s.depth.val = 16 := by
  unfold push
  have := s.depth.isLt
  split
  · next h => simp; omega
  · next h => simp [eq_comm]; intro; omega

/-- `Pop` with an entry: the top slot's address, and nothing but SP changes (R35, R36). -/
theorem pop_ok {s t : State} {a : Addr} (h : pop s = .ok (a, t)) :
    ∃ d, ∃ hd : d < 16, s.depth.val = d + 1 ∧ t.depth.val = d ∧ a = s.stack[d] ∧
      t.stack = s.stack ∧ t.v = s.v ∧ t.pc = s.pc ∧ t.i = s.i ∧ t.mem = s.mem ∧ t.notice = s.notice := by
  unfold pop at h
  have := s.depth.isLt
  split at h
  · next hd =>
    cases h
    exact ⟨s.depth.val - 1, by omega, by omega, rfl, rfl, rfl, rfl, rfl, rfl, rfl, rfl⟩
  · cases h

theorem pop_of_pos {s : State} (h : 0 < s.depth.val) :
    pop s = .ok (s.stack[s.depth.val - 1]'(by omega), { s with depth := ⟨s.depth.val - 1, by omega⟩ }) := by
  rw [pop, dif_pos h]

/-- `Pop` raises StackUnderflow exactly when `SP = -1` (R35). -/
theorem pop_error {s : State} {e : Fault} : pop s = .error e ↔ e = .stackUnderflow ∧ s.depth.val = 0 := by
  unfold pop
  split
  · next h => simp; omega
  · next h => simp [eq_comm]; intro; omega

/-! ### Fetch -/

theorem fetch_of_ne {s : State} (h : s.pc ≠ 0xFFF#12) : fetch s = .ok (s.mem.readWord s.pc) := by
  have h1 : s.pc.toNat ≠ 0xFFF := fun e => h (BitVec.eq_of_toNat_eq e)
  have := s.pc.isLt
  exact if_neg (show ¬(s.pc.toNat + 1 > 4095) by omega)

theorem fetch_at_top {s : State} (h : s.pc = 0xFFF#12) : fetch s = .error .outOfBounds := by
  simp [fetch, h]

theorem fetch_ok {s : State} {w : Word} (h : fetch s = .ok w) : s.pc ≠ 0xFFF#12 ∧ w = s.mem.readWord s.pc := by
  by_cases hp : s.pc = 0xFFF#12
  · rw [fetch_at_top hp] at h; cases h
  · rw [fetch_of_ne hp] at h; cases h; exact ⟨hp, rfl⟩

@[simp] theorem fetch_clearNotice (s : State) : fetch s.clearNotice = fetch s := rfl

/-! ### The ALU's step -/

@[simp] theorem aluStep_pc (op : AluOp) (x : Nibble) (ab : Byte × Byte) (s : State) :
    (aluStep op x ab s).pc = s.pcNext := by cases op <;> rfl
@[simp] theorem aluStep_i (op : AluOp) (x : Nibble) (ab : Byte × Byte) (s : State) :
    (aluStep op x ab s).i = s.i := by cases op <;> rfl
@[simp] theorem aluStep_stack (op : AluOp) (x : Nibble) (ab : Byte × Byte) (s : State) :
    (aluStep op x ab s).stack = s.stack := by cases op <;> rfl
@[simp] theorem aluStep_depth (op : AluOp) (x : Nibble) (ab : Byte × Byte) (s : State) :
    (aluStep op x ab s).depth = s.depth := by cases op <;> rfl
@[simp] theorem aluStep_mem (op : AluOp) (x : Nibble) (ab : Byte × Byte) (s : State) :
    (aluStep op x ab s).mem = s.mem := by cases op <;> rfl
@[simp] theorem aluStep_notice (op : AluOp) (x : Nibble) (ab : Byte × Byte) (s : State) :
    (aluStep op x ab s).notice = s.notice := by cases op <;> rfl
@[simp] theorem aluStep_slot (op : AluOp) (x : Nibble) (ab : Byte × Byte) (s : State) (k : Nibble) :
    (aluStep op x ab s).slot k = s.slot k := by cases op <;> rfl
@[simp] theorem aluStep_byte (op : AluOp) (x : Nibble) (ab : Byte × Byte) (s : State) (a : Addr) :
    (aluStep op x ab s).byte a = s.byte a := by cases op <;> rfl

/-- Where the ALU gives no flag, only `V[X]` changes, to the result. -/
theorem aluStep_reg_noFlag {op : AluOp} {ab : Byte × Byte} (h : (alu op ab.1 ab.2).2 = none) (x : Nibble)
    (s : State) (r : Nibble) :
    (aluStep op x ab s).reg r = if r = x then (alu op ab.1 ab.2).1 else s.reg r := by
  simp [aluStep, h, State.reg_setReg]

/-- Where the ALU gives a flag, it is the last write: `VF` holds it whatever `X` is (R119, R154). -/
theorem aluStep_reg_flag {op : AluOp} {ab : Byte × Byte} {f : Flag} (h : (alu op ab.1 ab.2).2 = some f) (x : Nibble)
    (s : State) (r : Nibble) :
    (aluStep op x ab s).reg r =
      if r = flagReg then f.setWidth 8 else if r = x then (alu op ab.1 ab.2).1 else s.reg r := by
  simp [aluStep, h, State.reg_setReg]

/-- `VF` after an instruction that gives a flag. -/
theorem aluStep_flagReg {op : AluOp} {ab : Byte × Byte} {f : Flag} (h : (alu op ab.1 ab.2).2 = some f) (x : Nibble)
    (s : State) : (aluStep op x ab s).reg flagReg = f.setWidth 8 := by
  rw [aluStep_reg_flag h, if_pos rfl]

/-! ### The flags in `VF`, as numbers (R30) -/

theorem carryFlag_toNat (a b : Byte) :
    ((carryFlag a b).setWidth 8).toNat = if a.toNat + b.toNat > 255 then 1 else 0 := by
  by_cases h : a.toNat + b.toNat > 255 <;> simp [carryFlag, h]

theorem greaterFlag_toNat (a b : Byte) :
    ((greaterFlag a b).setWidth 8).toNat = if a.toNat > b.toNat then 1 else 0 := by
  by_cases h : a.toNat > b.toNat <;> simp [greaterFlag, h]

theorem lowBitFlag_toNat (a : Byte) : ((lowBitFlag a).setWidth 8).toNat = a.toNat % 2 := by
  simp [lowBitFlag, BitVec.toNat_setWidth, BitVec.extractLsb'_toNat]; omega

theorem highBitFlag_toNat (a : Byte) : ((highBitFlag a).setWidth 8).toNat = a.toNat / 128 := by
  have := a.isLt
  simp [highBitFlag, BitVec.toNat_setWidth, BitVec.extractLsb'_toNat, Nat.shiftRight_eq_div_pow]
  omega

end Sys2Proof.Machine
end

