-- ==== Sys2Proof/Laws/Exec.lean ====
section
/-! SUPPORT. What an instruction and a STEP can do, once: the shapes of every next state, and of every error. -/

namespace Sys2Proof.Machine

/-- The shapes of a next state. -/
theorem exec_next {i : Instr} {s t : State} (h : exec i s = .next t) :
    (∃ a, t = s.setPc a) ∨
    (∃ op x ab, t = aluStep op x ab s) ∨
    (∃ a u, i = .call a ∧ push s.pcNext s = .ok u ∧ t = u.setPc a) ∨
    (∃ x a u, i = .ret x ∧ pop s = .ok (a, u) ∧ t = u.setPc a) ∨
    (∃ a, i = .loadI a ∧ t = (s.setI a).advance) ∨
    (i.isDelegated = true ∧ t = s.delegate (encode i)) := by
  cases i with
  | ret x =>
    simp only [exec, execReturn] at h
    cases hp : pop s with
    | error e => rw [hp] at h; cases h
    | ok r => rw [hp] at h; cases h; exact .inr (.inr (.inr (.inl ⟨x, r.1, r.2, rfl, rfl, rfl⟩)))
  | call a =>
    simp only [exec, execCall] at h
    cases hp : push s.pcNext s with
    | error e => rw [hp] at h; cases h
    | ok u => rw [hp] at h; cases h; exact .inr (.inr (.inl ⟨a, u, rfl, rfl, rfl⟩))
  | loadI a => cases h; exact .inr (.inr (.inr (.inr (.inl ⟨a, rfl, rfl⟩))))
  | skipIfEq x nn => cases h; exact .inl ⟨_, s.skipIf_eq_setPc _⟩
  | skipIfNeq x nn => cases h; exact .inl ⟨_, s.skipIf_eq_setPc _⟩
  | skipIfRegEq x y n => cases h; exact .inl ⟨_, s.skipIf_eq_setPc _⟩
  | skipIfRegNeq x y n => cases h; exact .inl ⟨_, s.skipIf_eq_setPc _⟩
  | jump _ | jumpOffset _ | nop0 | unrecognized0NNN _ | unrecognized8XY9 _ _ | unrecognized8XYA _ _
  | unrecognized8XYB _ _ | unrecognized8XYC _ _ | unrecognized8XYD _ _ | unrecognized8XYE _ _
  | unrecognized8XYF _ _ | unrecognized5XYN _ _ _ | unrecognized9XYN _ _ _ => cases h; exact .inl ⟨_, rfl⟩
  | loadImm _ _ | addImm _ _ | copy _ _ | or _ _ | and _ _ | xor _ _ | add _ _ | sub _ _ | shr _ _ | subn _ _
  | shl _ _ => cases h; exact .inr (.inl ⟨_, _, _, rfl⟩)
  | clear | drawRandom _ _ | drawSprite _ _ _ | keySkipPressed _ | keySkipNotPressed _ | delegatedEOther _ _
  | timerReadDelay _ | waitKey _ | timerSetDelay _ | timerSetSound _ | delegatedFX1E _ | delegatedFX29 _
  | delegatedFX33 _ | delegatedFX55 _ | delegatedFX65 _ | delegatedFOther _ _ =>
    cases h; exact .inr (.inr (.inr (.inr (.inr ⟨rfl, rfl⟩))))

/-- The shapes of an error. -/
theorem exec_fault {i : Instr} {s : State} {e : Fault} (h : exec i s = .fault e) :
    (∃ a, i = .call a ∧ push s.pcNext s = .error e) ∨ (∃ x, i = .ret x ∧ pop s = .error e) := by
  cases i with
  | ret x =>
    simp only [exec, execReturn] at h
    cases hp : pop s with
    | error e => rw [hp] at h; cases h; exact .inr ⟨x, rfl, rfl⟩
    | ok r => rw [hp] at h; cases h
  | call a =>
    simp only [exec, execCall] at h
    cases hp : push s.pcNext s with
    | error e => rw [hp] at h; cases h; exact .inl ⟨a, rfl, rfl⟩
    | ok u => rw [hp] at h; cases h
  | _ => cases h

/-- No instruction is refused. -/
theorem exec_not_refused (i : Instr) (s : State) (r : Refusal) : exec i s ≠ .refused r := by
  intro h
  cases i with
  | ret x => simp only [exec, execReturn] at h; cases hp : pop s <;> rw [hp] at h <;> cases h
  | call a => simp only [exec, execCall] at h; cases hp : push s.pcNext s <;> rw [hp] at h <;> cases h
  | _ => cases h

/-- No instruction writes memory (R46, R55). -/
theorem exec_mem {i : Instr} {s t : State} (h : exec i s = .next t) : t.mem = s.mem := by
  obtain ⟨a, rfl⟩ | ⟨op, x, ab, rfl⟩ | ⟨a, u, -, hu, rfl⟩ | ⟨x, a, u, -, hu, rfl⟩ | ⟨a, -, rfl⟩ | ⟨-, rfl⟩ := exec_next h
  · rfl
  · simp
  · obtain ⟨-, -, -, -, -, -, hm, -⟩ := push_ok hu; exact hm
  · obtain ⟨d, -, -, -, -, -, -, -, -, hm, -⟩ := pop_ok hu; exact hm
  · rfl
  · rfl

end Sys2Proof.Machine
end

