-- ==== Sys2Proof/Laws/PerInstr.lean ====
section
/-! SUPPORT. The family TableRow: under the reference parameters an instruction's word matches the row of
spec/opcode_table.json that bears its mnemonic, `(word & mask) == match`. One lemma per constructor. -/

namespace Sys2Proof.Laws.TableRow

/-- What the table says of one instruction, as syntax. -/
def Statement (i : Instr) : Prop :=
  i.wellFormed Params.reference = true →
    ∃ r ∈ opcodeRows, r.mnemonic = i.mnemonic ∧ encode i &&& r.mask = r.pattern

/-! ### A word of each form under the masks of the table -/

theorem wordA_family (op : Nibble) (nnn : Addr) : wordA op nnn &&& 0xF000#16 = wordA op 0x000#12 := by
  have h := BitVec.and_append (x₁ := op) (y₁ := nnn) (x₂ := 0xF#4) (y₂ := 0x000#12)
  have e : op &&& 0xF#4 = op := BitVec.and_allOnes
  rw [e, BitVec.and_zero] at h
  exact h

theorem wordRI_family (op x : Nibble) (nn : Byte) : wordRI op x nn &&& 0xF000#16 = wordA op 0x000#12 := by
  rw [← wordA_fields (wordRI op x nn), wordA_family, fieldOp_wordRI]

theorem wordRR_family (op x y n : Nibble) : wordRR op x y n &&& 0xF000#16 = wordA op 0x000#12 := by
  rw [← wordA_fields (wordRR op x y n), wordA_family, fieldOp_wordRR]

theorem wordRI_familyByte (op x : Nibble) (nn : Byte) : wordRI op x nn &&& 0xF0FF#16 = wordRI op 0x0#4 nn := by
  have h := BitVec.and_append (x₁ := op ++ x) (y₁ := nn) (x₂ := 0xF0#8) (y₂ := 0xFF#8)
  have h' := BitVec.and_append (x₁ := op) (y₁ := x) (x₂ := 0xF#4) (y₂ := 0x0#4)
  have e : op &&& 0xF#4 = op := BitVec.and_allOnes
  have e' : nn &&& 0xFF#8 = nn := BitVec.and_allOnes
  rw [e, BitVec.and_zero] at h'
  rw [e'] at h
  exact h.trans (congrArg (· ++ nn) h')

theorem wordRR_familyNibble (op x y n : Nibble) :
    wordRR op x y n &&& 0xF00F#16 = wordRR op 0x0#4 0x0#4 n := by
  have h := BitVec.and_append (x₁ := op ++ x ++ y) (y₁ := n) (x₂ := 0xF00#12) (y₂ := 0xF#4)
  have h' := BitVec.and_append (x₁ := op ++ x) (y₁ := y) (x₂ := 0xF0#8) (y₂ := 0x0#4)
  have h'' := BitVec.and_append (x₁ := op) (y₁ := x) (x₂ := 0xF#4) (y₂ := 0x0#4)
  have e : op &&& 0xF#4 = op := BitVec.and_allOnes
  have e' : n &&& 0xF#4 = n := BitVec.and_allOnes
  rw [e, BitVec.and_zero] at h''
  rw [BitVec.and_zero] at h'
  rw [e'] at h
  exact h.trans (congrArg (· ++ n) (h'.trans (congrArg (· ++ 0x0#4) h'')))

/-! ### One lemma per constructor -/

theorem ret (x : Nibble) : Statement (.ret x) :=
  fun h => ⟨⟨"RETURN", 0x00EE#16, 0xFFFF#16⟩, by decide, rfl, by
    have hx : x = 0x0#4 := by simpa [Instr.wellFormed, Params.reference] using h
    subst hx; rfl⟩

theorem clear : Statement (.clear) :=
  fun _ => ⟨⟨"CLEAR", 0x00E0#16, 0xFFFF#16⟩, by decide, rfl, rfl⟩

theorem nop0 : Statement (.nop0) :=
  fun _ => ⟨⟨"NOP0", 0x0000#16, 0xFFFF#16⟩, by decide, rfl, rfl⟩

theorem unrecognized0NNN (nnn : Addr) : Statement (.unrecognized0NNN nnn) :=
  fun _ => ⟨⟨"UNRECOGNIZED-0NNN", 0x0000#16, 0xF000#16⟩, by decide, rfl, wordA_family _ _⟩

theorem jump (nnn : Addr) : Statement (.jump nnn) :=
  fun _ => ⟨⟨"JUMP", 0x1000#16, 0xF000#16⟩, by decide, rfl, wordA_family _ _⟩

theorem call (nnn : Addr) : Statement (.call nnn) :=
  fun _ => ⟨⟨"CALL", 0x2000#16, 0xF000#16⟩, by decide, rfl, wordA_family _ _⟩

theorem skipIfEq (x : Nibble) (nn : Byte) : Statement (.skipIfEq x nn) :=
  fun _ => ⟨⟨"SKIP-IF-EQ", 0x3000#16, 0xF000#16⟩, by decide, rfl, wordRI_family _ _ _⟩

theorem skipIfNeq (x : Nibble) (nn : Byte) : Statement (.skipIfNeq x nn) :=
  fun _ => ⟨⟨"SKIP-IF-NEQ", 0x4000#16, 0xF000#16⟩, by decide, rfl, wordRI_family _ _ _⟩

theorem skipIfRegEq (x y n : Nibble) : Statement (.skipIfRegEq x y n) :=
  fun _ => ⟨⟨"SKIP-IF-REG-EQ", 0x5000#16, 0xF000#16⟩, by decide, rfl, wordRR_family _ _ _ _⟩

theorem loadImm (x : Nibble) (nn : Byte) : Statement (.loadImm x nn) :=
  fun _ => ⟨⟨"LOAD-IMM", 0x6000#16, 0xF000#16⟩, by decide, rfl, wordRI_family _ _ _⟩

theorem addImm (x : Nibble) (nn : Byte) : Statement (.addImm x nn) :=
  fun _ => ⟨⟨"ADD-IMM", 0x7000#16, 0xF000#16⟩, by decide, rfl, wordRI_family _ _ _⟩

theorem copy (x y : Nibble) : Statement (.copy x y) :=
  fun _ => ⟨⟨"COPY", 0x8000#16, 0xF00F#16⟩, by decide, rfl, wordRR_familyNibble _ _ _ _⟩

theorem or (x y : Nibble) : Statement (.or x y) :=
  fun _ => ⟨⟨"OR", 0x8001#16, 0xF00F#16⟩, by decide, rfl, wordRR_familyNibble _ _ _ _⟩

theorem and (x y : Nibble) : Statement (.and x y) :=
  fun _ => ⟨⟨"AND", 0x8002#16, 0xF00F#16⟩, by decide, rfl, wordRR_familyNibble _ _ _ _⟩

theorem xor (x y : Nibble) : Statement (.xor x y) :=
  fun _ => ⟨⟨"XOR", 0x8003#16, 0xF00F#16⟩, by decide, rfl, wordRR_familyNibble _ _ _ _⟩

theorem add (x y : Nibble) : Statement (.add x y) :=
  fun _ => ⟨⟨"ADD", 0x8004#16, 0xF00F#16⟩, by decide, rfl, wordRR_familyNibble _ _ _ _⟩

theorem sub (x y : Nibble) : Statement (.sub x y) :=
  fun _ => ⟨⟨"SUB", 0x8005#16, 0xF00F#16⟩, by decide, rfl, wordRR_familyNibble _ _ _ _⟩

theorem shr (x y : Nibble) : Statement (.shr x y) :=
  fun _ => ⟨⟨"SHR", 0x8006#16, 0xF00F#16⟩, by decide, rfl, wordRR_familyNibble _ _ _ _⟩

theorem subn (x y : Nibble) : Statement (.subn x y) :=
  fun _ => ⟨⟨"SUBN", 0x8007#16, 0xF00F#16⟩, by decide, rfl, wordRR_familyNibble _ _ _ _⟩

theorem shl (x y : Nibble) : Statement (.shl x y) :=
  fun _ => ⟨⟨"SHL", 0x8008#16, 0xF00F#16⟩, by decide, rfl, wordRR_familyNibble _ _ _ _⟩

theorem unrecognized8XY9 (x y : Nibble) : Statement (.unrecognized8XY9 x y) :=
  fun _ => ⟨⟨"UNRECOGNIZED-8XY9", 0x8009#16, 0xF00F#16⟩, by decide, rfl, wordRR_familyNibble _ _ _ _⟩

theorem unrecognized8XYA (x y : Nibble) : Statement (.unrecognized8XYA x y) :=
  fun _ => ⟨⟨"UNRECOGNIZED-8XYA", 0x800A#16, 0xF00F#16⟩, by decide, rfl, wordRR_familyNibble _ _ _ _⟩

theorem unrecognized8XYB (x y : Nibble) : Statement (.unrecognized8XYB x y) :=
  fun _ => ⟨⟨"UNRECOGNIZED-8XYB", 0x800B#16, 0xF00F#16⟩, by decide, rfl, wordRR_familyNibble _ _ _ _⟩

theorem unrecognized8XYC (x y : Nibble) : Statement (.unrecognized8XYC x y) :=
  fun _ => ⟨⟨"UNRECOGNIZED-8XYC", 0x800C#16, 0xF00F#16⟩, by decide, rfl, wordRR_familyNibble _ _ _ _⟩

theorem unrecognized8XYD (x y : Nibble) : Statement (.unrecognized8XYD x y) :=
  fun _ => ⟨⟨"UNRECOGNIZED-8XYD", 0x800D#16, 0xF00F#16⟩, by decide, rfl, wordRR_familyNibble _ _ _ _⟩

theorem unrecognized8XYE (x y : Nibble) : Statement (.unrecognized8XYE x y) :=
  fun _ => ⟨⟨"UNRECOGNIZED-8XYE", 0x800E#16, 0xF00F#16⟩, by decide, rfl, wordRR_familyNibble _ _ _ _⟩

theorem unrecognized8XYF (x y : Nibble) : Statement (.unrecognized8XYF x y) :=
  fun _ => ⟨⟨"UNRECOGNIZED-8XYF", 0x800F#16, 0xF00F#16⟩, by decide, rfl, wordRR_familyNibble _ _ _ _⟩

theorem skipIfRegNeq (x y n : Nibble) : Statement (.skipIfRegNeq x y n) :=
  fun _ => ⟨⟨"SKIP-IF-REG-NEQ", 0x9000#16, 0xF000#16⟩, by decide, rfl, wordRR_family _ _ _ _⟩

theorem loadI (nnn : Addr) : Statement (.loadI nnn) :=
  fun _ => ⟨⟨"LOAD-I", 0xA000#16, 0xF000#16⟩, by decide, rfl, wordA_family _ _⟩

theorem jumpOffset (nnn : Addr) : Statement (.jumpOffset nnn) :=
  fun _ => ⟨⟨"JUMP-OFFSET", 0xB000#16, 0xF000#16⟩, by decide, rfl, wordA_family _ _⟩

theorem drawRandom (x : Nibble) (nn : Byte) : Statement (.drawRandom x nn) :=
  fun _ => ⟨⟨"DRAW-RANDOM", 0xC000#16, 0xF000#16⟩, by decide, rfl, wordRI_family _ _ _⟩

theorem drawSprite (x y n : Nibble) : Statement (.drawSprite x y n) :=
  fun _ => ⟨⟨"DRAW-SPRITE", 0xD000#16, 0xF000#16⟩, by decide, rfl, wordRR_family _ _ _ _⟩

theorem keySkipPressed (x : Nibble) : Statement (.keySkipPressed x) :=
  fun _ => ⟨⟨"KEY-SKIP-PRESSED", 0xE09E#16, 0xF0FF#16⟩, by decide, rfl, wordRI_familyByte _ _ _⟩

theorem keySkipNotPressed (x : Nibble) : Statement (.keySkipNotPressed x) :=
  fun _ => ⟨⟨"KEY-SKIP-NOT-PRESSED", 0xE0A1#16, 0xF0FF#16⟩, by decide, rfl, wordRI_familyByte _ _ _⟩

theorem delegatedEOther (x : Nibble) (nn : Byte) : Statement (.delegatedEOther x nn) :=
  fun _ => ⟨⟨"DELEGATED-E-OTHER", 0xE000#16, 0xF000#16⟩, by decide, rfl, wordRI_family _ _ _⟩

theorem timerReadDelay (x : Nibble) : Statement (.timerReadDelay x) :=
  fun _ => ⟨⟨"TIMER-READ-DELAY", 0xF007#16, 0xF0FF#16⟩, by decide, rfl, wordRI_familyByte _ _ _⟩

theorem waitKey (x : Nibble) : Statement (.waitKey x) :=
  fun _ => ⟨⟨"WAIT-KEY", 0xF00A#16, 0xF0FF#16⟩, by decide, rfl, wordRI_familyByte _ _ _⟩

theorem timerSetDelay (x : Nibble) : Statement (.timerSetDelay x) :=
  fun _ => ⟨⟨"TIMER-SET-DELAY", 0xF015#16, 0xF0FF#16⟩, by decide, rfl, wordRI_familyByte _ _ _⟩

theorem timerSetSound (x : Nibble) : Statement (.timerSetSound x) :=
  fun _ => ⟨⟨"TIMER-SET-SOUND", 0xF018#16, 0xF0FF#16⟩, by decide, rfl, wordRI_familyByte _ _ _⟩

theorem delegatedFX1E (x : Nibble) : Statement (.delegatedFX1E x) :=
  fun _ => ⟨⟨"DELEGATED-FX1E", 0xF01E#16, 0xF0FF#16⟩, by decide, rfl, wordRI_familyByte _ _ _⟩

theorem delegatedFX29 (x : Nibble) : Statement (.delegatedFX29 x) :=
  fun _ => ⟨⟨"DELEGATED-FX29", 0xF029#16, 0xF0FF#16⟩, by decide, rfl, wordRI_familyByte _ _ _⟩

theorem delegatedFX33 (x : Nibble) : Statement (.delegatedFX33 x) :=
  fun _ => ⟨⟨"DELEGATED-FX33", 0xF033#16, 0xF0FF#16⟩, by decide, rfl, wordRI_familyByte _ _ _⟩

theorem delegatedFX55 (x : Nibble) : Statement (.delegatedFX55 x) :=
  fun _ => ⟨⟨"DELEGATED-FX55", 0xF055#16, 0xF0FF#16⟩, by decide, rfl, wordRI_familyByte _ _ _⟩

theorem delegatedFX65 (x : Nibble) : Statement (.delegatedFX65 x) :=
  fun _ => ⟨⟨"DELEGATED-FX65", 0xF065#16, 0xF0FF#16⟩, by decide, rfl, wordRI_familyByte _ _ _⟩

theorem delegatedFOther (x : Nibble) (nn : Byte) : Statement (.delegatedFOther x nn) :=
  fun _ => ⟨⟨"DELEGATED-F-OTHER", 0xF000#16, 0xF000#16⟩, by decide, rfl, wordRI_family _ _ _⟩

theorem unrecognized5XYN (x y n : Nibble) : Statement (.unrecognized5XYN x y n) :=
  fun _ => ⟨⟨"SKIP-IF-REG-EQ", 0x5000#16, 0xF000#16⟩, by decide, rfl, wordRR_family _ _ _ _⟩

theorem unrecognized9XYN (x y n : Nibble) : Statement (.unrecognized9XYN x y n) :=
  fun _ => ⟨⟨"SKIP-IF-REG-NEQ", 0x9000#16, 0xF000#16⟩, by decide, rfl, wordRR_family _ _ _ _⟩

end Sys2Proof.Laws.TableRow
end

