-- ==== Sys2Proof/Laws/Step.lean ====
section
/-! SUPPORT. The sequencer: a STEP is its fetch, its decode and its instruction (R84). -/

namespace Sys2Proof.Machine

theorem stepWith_of_fetch_error {p : Params} {s : State} {e : Fault} (h : fetch s = .error e) :
    stepWith p s = .fault e := by
  simp [stepWith, h, raise]

theorem stepWith_of_fetch_ok {p : Params} {s : State} {w : Word} (h : fetch s = .ok w) :
    stepWith p s = if refuses p (decodeWord p w) then .refused (.delegatedRefused w)
      else exec (decodeWord p w) s.clearNotice := by
  simp [stepWith, h]

/-- A next state comes of a fetched word, not refused, and its instruction. -/
theorem stepWith_next {p : Params} {s t : State} (h : stepWith p s = .next t) :
    ∃ w, fetch s = .ok w ∧ refuses p (decodeWord p w) = false ∧ exec (decodeWord p w) s.clearNotice = .next t := by
  cases hf : fetch s with
  | error e => rw [stepWith_of_fetch_error hf] at h; cases h
  | ok w =>
    rw [stepWith_of_fetch_ok hf] at h
    split at h
    · cases h
    · next hr => exact ⟨w, rfl, by simpa using hr, h⟩

/-- An error comes of the fetch or of the instruction. -/
theorem stepWith_fault {p : Params} {s : State} {e : Fault} (h : stepWith p s = .fault e) :
    (fetch s = .error e) ∨
      ∃ w, fetch s = .ok w ∧ refuses p (decodeWord p w) = false ∧ exec (decodeWord p w) s.clearNotice = .fault e := by
  cases hf : fetch s with
  | error e' => rw [stepWith_of_fetch_error hf] at h; cases h; exact .inl rfl
  | ok w =>
    rw [stepWith_of_fetch_ok hf] at h
    split at h
    · cases h
    · next hr => exact .inr ⟨w, rfl, by simpa using hr, h⟩

/-- A refusal comes of a delegated word under `DELEGATED_MODE = refuse` (R92). -/
theorem stepWith_refused {p : Params} {s : State} {r : Refusal} (h : stepWith p s = .refused r) :
    ∃ w, fetch s = .ok w ∧ refuses p (decodeWord p w) = true ∧ r = .delegatedRefused w := by
  cases hf : fetch s with
  | error e' => rw [stepWith_of_fetch_error hf] at h; cases h
  | ok w =>
    rw [stepWith_of_fetch_ok hf] at h
    split at h
    · next hr => cases h; exact ⟨w, rfl, hr, rfl⟩
    · exact absurd h (exec_not_refused _ _ _)

/-- Under the reference parameters nothing is refused. -/
@[simp] theorem refuses_reference (i : Instr) : refuses Params.reference i = false := rfl

/-! ### Transactions and runs -/

/-- What a transaction with a result is (R76): RESET, a LOAD that fits or not, a STEP that completes or fails. -/
theorem transact_ok {p : Params} {s t : State} {q : Request} {r : Result} (h : transact p s q = .ok (t, r)) :
    (q = .reset ∧ t = State.reset ∧ r = .ok) ∨
    (∃ bytes, q = .load bytes ∧ load bytes s = .ok t ∧ r = .ok) ∨
    (∃ bytes e, q = .load bytes ∧ load bytes s = .error e ∧ t = s ∧ r = .ofFault e) ∨
    (q = .step ∧ stepWith p s = .next t ∧ r = .ok) ∨
    (∃ e, q = .step ∧ stepWith p s = .fault e ∧ t = s.clearNotice ∧ r = .ofFault e) := by
  cases q with
  | reset => cases h; exact .inl ⟨rfl, rfl, rfl⟩
  | load bytes =>
    simp only [transact] at h
    cases hl : load bytes s with
    | ok u => rw [hl] at h; cases h; exact .inr (.inl ⟨bytes, rfl, hl, rfl⟩)
    | error e => rw [hl] at h; cases h; exact .inr (.inr (.inl ⟨bytes, e, rfl, hl, rfl, rfl⟩))
  | step =>
    simp only [transact] at h
    cases hs : stepWith p s with
    | next u => rw [hs] at h; cases h; exact .inr (.inr (.inr (.inl ⟨rfl, rfl, rfl⟩)))
    | fault e => rw [hs] at h; cases h; exact .inr (.inr (.inr (.inr ⟨e, rfl, rfl, rfl, rfl⟩)))
    | refused r => rw [hs] at h; cases h

/-- Only a refused STEP is refused (R92). -/
theorem transact_error {p : Params} {s : State} {q : Request} {r : Refusal} :
    transact p s q = .error r ↔ q = .step ∧ stepWith p s = .refused r := by
  cases q with
  | reset => simp [transact]
  | load bytes => simp only [transact]; split <;> simp
  | step => simp only [transact]; split <;> simp_all

@[simp] theorem Result.ofFault_ne_ok (e : Fault) : Result.ofFault e ≠ .ok := by cases e <;> decide

@[simp] theorem runRequests_nil (p : Params) (s : State) : runRequests p s [] = .ok (s, []) := rfl

theorem runRequests_cons_ok {p : Params} {s t : State} {q : Request} {r : Result} (h : transact p s q = .ok (t, r))
    (qs : List Request) :
    runRequests p s (q :: qs) = (runRequests p t qs).map fun u => (u.1, r :: u.2) := by
  simp only [runRequests, h]
  cases runRequests p t qs <;> rfl

theorem runRequests_cons_error {p : Params} {s : State} {q : Request} {r : Refusal} (h : transact p s q = .error r)
    (qs : List Request) : runRequests p s (q :: qs) = .error r := by
  simp only [runRequests, h]

end Sys2Proof.Machine
end

