-- ==== Sys2Proof/Tests/Slice0.lean ====
section
/-! SUPPORT. Tests. Expected results are from spec/95_test_vectors.md (`V<n>` is a row of its L2, `P<n>` a program of
its L3), or worked from the rule named; then a witness for every statement with hypotheses. -/

namespace Sys2Proof.Tests

open Sys2Proof.Machine

/-- The state after RESET with the word `w` placed at `PC = 0x200` (log 11). -/
def placed (w : Nat) : State := State.reset.withFetchWord 16 w

/-- As `placed`, at another PC. -/
def placedAt (pc : Addr) (w : Nat) : State := (State.reset.setPc pc).withFetchWord 16 w

/-- As `placedAt`, with `n` slots occupied, every slot 0x202. -/
def placedDepth (pc : Addr) (n : Fin 17) (w : Nat) : State :=
  { placedAt pc w with depth := n, stack := Vector.replicate 16 0x202#12 }

/-- What `f` reads of the next state. -/
def seen {α : Type} (f : State → α) : Answer → Option α
  | .next t => some (f t)
  | .fault _ => none
  | .refused _ => none

/-- PC and two registers of the state after a step. -/
def pcAnd (a b : Nibble) (s : State) : Option (Addr × Byte × Byte) :=
  seen (fun t => (t.pc, t.reg a, t.reg b)) (step s)

/-- PC, SP and the slot `k` after a step. -/
def pcSpSlot (k : Nibble) (s : State) : Option (Addr × Int × Addr) :=
  seen (fun t => (t.pc, t.sp, t.slot k)) (step s)

/-- PC and the notice after a step. -/
def pcNotice (s : State) : Option (Addr × Option Word) := seen (fun t => (t.pc, t.notice)) (step s)

/-- PC after a STEP under the parameters `p`. -/
def pcUnder (p : Params) (s : State) : Option Addr := seen (·.pc) (stepWith p s)

/-- The parameters with one option changed. -/
def strict : Params := { Params.reference with strictSkipRegDecode := true }
def lowByte : Params := { Params.reference with zeroFamilyLowByteDecode := true }
def refuse : Params := { Params.reference with delegatedMode := .refuse }

/-! ### Decoding: words written out from the rows of spec/opcode_table.json, X = A, Y = B, NN = 5C, NNN = 2F3 -/

theorem test_decode_families_0_to_7 :
    decodeTableWord 16 0b0000000011101110 = some (.ret 0x0) ∧ decodeTableWord 16 0b0000000011100000 = some .clear ∧
    decodeTableWord 16 0b0000000000000000 = some .nop0 ∧
    decodeTableWord 16 0b0000001011110011 = some (.unrecognized0NNN 0x2F3) ∧
    decodeTableWord 16 0b0001001011110011 = some (.jump 0x2F3) ∧
    decodeTableWord 16 0b0010001011110011 = some (.call 0x2F3) ∧
    decodeTableWord 16 0b0011101001011100 = some (.skipIfEq 0xA 0x5C) ∧
    decodeTableWord 16 0b0100101001011100 = some (.skipIfNeq 0xA 0x5C) ∧
    decodeTableWord 16 0b0101101010110000 = some (.skipIfRegEq 0xA 0xB 0x0) ∧
    decodeTableWord 16 0b0110101001011100 = some (.loadImm 0xA 0x5C) ∧
    decodeTableWord 16 0b0111101001011100 = some (.addImm 0xA 0x5C) := by decide

theorem test_decode_family_8 :
    decodeTableWord 16 0b1000101010110000 = some (.copy 0xA 0xB) ∧
    decodeTableWord 16 0b1000101010110001 = some (.or 0xA 0xB) ∧
    decodeTableWord 16 0b1000101010110010 = some (.and 0xA 0xB) ∧
    decodeTableWord 16 0b1000101010110011 = some (.xor 0xA 0xB) ∧
    decodeTableWord 16 0b1000101010110100 = some (.add 0xA 0xB) ∧
    decodeTableWord 16 0b1000101010110101 = some (.sub 0xA 0xB) ∧
    decodeTableWord 16 0b1000101010110110 = some (.shr 0xA 0xB) ∧
    decodeTableWord 16 0b1000101010110111 = some (.subn 0xA 0xB) ∧
    decodeTableWord 16 0b1000101010111000 = some (.shl 0xA 0xB) ∧
    decodeTableWord 16 0b1000101010111001 = some (.unrecognized8XY9 0xA 0xB) ∧
    decodeTableWord 16 0b1000101010111010 = some (.unrecognized8XYA 0xA 0xB) ∧
    decodeTableWord 16 0b1000101010111011 = some (.unrecognized8XYB 0xA 0xB) ∧
    decodeTableWord 16 0b1000101010111100 = some (.unrecognized8XYC 0xA 0xB) ∧
    decodeTableWord 16 0b1000101010111101 = some (.unrecognized8XYD 0xA 0xB) ∧
    decodeTableWord 16 0b1000101010111110 = some (.unrecognized8XYE 0xA 0xB) ∧
    decodeTableWord 16 0b1000101010111111 = some (.unrecognized8XYF 0xA 0xB) := by decide

theorem test_decode_families_9_to_E :
    decodeTableWord 16 0b1001101010110000 = some (.skipIfRegNeq 0xA 0xB 0x0) ∧
    decodeTableWord 16 0b1010001011110011 = some (.loadI 0x2F3) ∧
    decodeTableWord 16 0b1011001011110011 = some (.jumpOffset 0x2F3) ∧
    decodeTableWord 16 0b1100101001011100 = some (.drawRandom 0xA 0x5C) ∧
    decodeTableWord 16 0b1101101010110101 = some (.drawSprite 0xA 0xB 0x5) ∧
    decodeTableWord 16 0b1110101010011110 = some (.keySkipPressed 0xA) ∧
    decodeTableWord 16 0b1110101010100001 = some (.keySkipNotPressed 0xA) ∧
    decodeTableWord 16 0b1110101001011100 = some (.delegatedEOther 0xA 0x5C) := by decide

theorem test_decode_family_F :
    decodeTableWord 16 0b1111101000000111 = some (.timerReadDelay 0xA) ∧
    decodeTableWord 16 0b1111101000001010 = some (.waitKey 0xA) ∧
    decodeTableWord 16 0b1111101000010101 = some (.timerSetDelay 0xA) ∧
    decodeTableWord 16 0b1111101000011000 = some (.timerSetSound 0xA) ∧
    decodeTableWord 16 0b1111101000011110 = some (.delegatedFX1E 0xA) ∧
    decodeTableWord 16 0b1111101000101001 = some (.delegatedFX29 0xA) ∧
    decodeTableWord 16 0b1111101000110011 = some (.delegatedFX33 0xA) ∧
    decodeTableWord 16 0b1111101001010101 = some (.delegatedFX55 0xA) ∧
    decodeTableWord 16 0b1111101001100101 = some (.delegatedFX65 0xA) ∧
    decodeTableWord 16 0b1111101001011100 = some (.delegatedFOther 0xA 0x5C) := by decide

/-- R65, R68, R71: the options of R7. -/
theorem test_decode_under_the_options :
    decodeWord Params.reference 0x5121#16 = .skipIfRegEq 0x1 0x2 0x1 ∧
    decodeWord strict 0x5121#16 = .unrecognized5XYN 0x1 0x2 0x1 ∧
    decodeWord strict 0x9121#16 = .unrecognized9XYN 0x1 0x2 0x1 ∧
    decodeWord Params.reference 0x01EE#16 = .unrecognized0NNN 0x1EE ∧
    decodeWord lowByte 0x01EE#16 = .ret 0x1 ∧ decodeWord lowByte 0x01E0#16 = .unrecognized0NNN 0x1E0 := by decide

/-- R42, R60: the high byte is the first in memory; one byte is no word. -/
theorem test_decode_bytes :
    decodeBytes Params.reference [0x12#8, 0x34#8, 0x56#8] = .ok (.jump 0x234, [0x56#8]) ∧
    ¬∃ r, decodeBytes Params.reference [0x12#8] = .ok r :=
  ⟨by decide, fun ⟨_, h⟩ => by cases h⟩

/-! ### WellFormed: each check refuses an ill-formed instruction -/

theorem test_ill_formed_family_0 :
    (Instr.ret 0x1).wellFormed Params.reference = false ∧
    (Instr.unrecognized0NNN 0x000).wellFormed Params.reference = false ∧
    (Instr.unrecognized0NNN 0x0E0).wellFormed Params.reference = false ∧
    (Instr.unrecognized0NNN 0x0EE).wellFormed Params.reference = false ∧
    (Instr.unrecognized0NNN 0x1EE).wellFormed lowByte = false := by decide

theorem test_ill_formed_register_skips :
    (Instr.skipIfRegEq 0x1 0x2 0x1).wellFormed strict = false ∧
    (Instr.skipIfRegNeq 0x1 0x2 0x1).wellFormed strict = false ∧
    (Instr.unrecognized5XYN 0x1 0x2 0x0).wellFormed strict = false ∧
    (Instr.unrecognized9XYN 0x1 0x2 0x0).wellFormed strict = false ∧
    (Instr.unrecognized5XYN 0x1 0x2 0x1).wellFormed Params.reference = false ∧
    (Instr.unrecognized9XYN 0x1 0x2 0x1).wellFormed Params.reference = false := by decide

theorem test_ill_formed_catch_alls :
    (namedLowBytesE.all fun nn => !(Instr.delegatedEOther 0x1 nn).wellFormed Params.reference) = true ∧
    (namedLowBytesF.all fun nn => !(Instr.delegatedFOther 0x1 nn).wellFormed Params.reference) = true := by decide

/-! ### Control flow -/

/-- V2, V4: an odd target, and the top one. -/
theorem test_jump : pcAnd 0 0xF (placed 0x1201) = some (0x201, 0, 0) ∧ pcAnd 0 0xF (placed 0x1FFF) = some (0xFFF, 0, 0) := by
  decide

/-- V7 and V8: a nested call, and a return address that wraps. -/
theorem test_call :
    pcSpSlot 1 (placedDepth 0x250 1 0x2300) = some (0x300, 1, 0x252) ∧
    pcSpSlot 0 (placedAt 0xFFE 0x2300) = some (0x300, 0, 0x000) := by decide

/-- V9: the stack is full. -/
theorem test_call_overflow : step (placedDepth 0x200 16 0x2300) = .fault .stackOverflow := rfl

/-- V11, V15: RETURN, and the same of `01EE` under the option. -/
theorem test_return :
    pcSpSlot 0 (placedDepth 0x300 1 0x00EE) = some (0x202, -1, 0x202) ∧
    pcUnder lowByte (placedDepth 0x300 1 0x01EE) = some 0x202 := by decide

/-- V13: the stack is empty. -/
theorem test_return_underflow : step (placedAt 0x300 0x00EE) = .fault .stackUnderflow := rfl

/-- V16, V19: a skip, and one that wraps. -/
theorem test_skipIfEq :
    pcAnd 3 0xF ((placed 0x3312).setReg 3 0x12) = some (0x204, 0x12, 0) ∧
    pcAnd 0 0xF (placedAt 0xFFE 0x3000) = some (0x002, 0, 0) := by decide

/-- V21, V22. -/
theorem test_skipIfNeq :
    pcAnd 3 0xF ((placed 0x4312).setReg 3 0x13) = some (0x204, 0x13, 0) ∧
    pcAnd 3 0xF ((placed 0x4312).setReg 3 0x12) = some (0x202, 0x12, 0) := by decide

/-- V24, V26 and V27: unequal, equal with `N = 1`, and the same under the strict option. -/
theorem test_skipIfRegEq :
    pcAnd 1 2 (((placed 0x5120).setReg 1 7).setReg 2 8) = some (0x202, 7, 8) ∧
    pcAnd 1 2 (((placed 0x5121).setReg 1 7).setReg 2 7) = some (0x204, 7, 7) ∧
    pcUnder strict (((placed 0x5121).setReg 1 7).setReg 2 7) = some 0x202 := by decide

/-- V28, V30; and R71's `9XYN`, unequal, under the strict option. -/
theorem test_skipIfRegNeq :
    pcAnd 1 2 (((placed 0x9120).setReg 1 7).setReg 2 8) = some (0x204, 7, 8) ∧
    pcAnd 3 0xF ((placed 0x9330).setReg 3 0x42) = some (0x202, 0x42, 0) ∧
    pcUnder strict (((placed 0x9121).setReg 1 7).setReg 2 8) = some 0x202 := by decide

/-- V32, V34: the sum wraps, and `V3` is not added. -/
theorem test_jumpOffset :
    pcAnd 0 0xF ((placed 0xBFFF).setReg 0 0xFF) = some (0x0FE, 0xFF, 0) ∧
    pcAnd 0 3 (((placed 0xB300).setReg 0 0x01).setReg 3 0x50) = some (0x301, 0x01, 0x50) := by decide

/-! ### The ALU -/

/-- V35, V36. -/
theorem test_loadImm :
    pcAnd 0xA 0xF (placed 0x6A5C) = some (0x202, 0x5C, 0) ∧ pcAnd 0 0xF (placed 0x6FFF) = some (0x202, 0, 0xFF) := by
  decide

/-- V38, V40: no carry flag. -/
theorem test_addImm :
    pcAnd 2 0xF ((placed 0x7201).setReg 2 0xFF) = some (0x202, 0, 0) ∧
    pcAnd 0 0xF ((placed 0x7F01).setReg 0xF 0xFF) = some (0x202, 0, 0) := by decide

/-- V41. -/
theorem test_copy : pcAnd 1 5 ((placed 0x8150).setReg 5 0x33) = some (0x202, 0x33, 0x33) := by decide

/-- V44: VF is left alone. -/
theorem test_or :
    pcAnd 1 0xF ((((placed 0x8121).setReg 1 0x0F).setReg 2 0xF0).setReg 0xF 0x55) = some (0x202, 0xFF, 0x55) := by decide

/-- V45. -/
theorem test_and : pcAnd 1 0xF (((placed 0x8122).setReg 1 0x3C).setReg 2 0x0F) = some (0x202, 0x0C, 0) := by decide

/-- V46. -/
theorem test_xor : pcAnd 1 0xF (((placed 0x8123).setReg 1 0xFF).setReg 2 0x0F) = some (0x202, 0xF0, 0) := by decide

/-- V50, V55: the largest sum; the flag wins in VF. -/
theorem test_add :
    pcAnd 1 0xF (((placed 0x8124).setReg 1 0xFF).setReg 2 0xFF) = some (0x202, 0xFE, 1) ∧
    pcAnd 1 0xF (((placed 0x8F14).setReg 0xF 0xFF).setReg 1 1) = some (0x202, 1, 1) := by decide

/-- V58, V59: a borrow; equal operands. -/
theorem test_sub :
    pcAnd 1 0xF (((placed 0x8125).setReg 1 1).setReg 2 2) = some (0x202, 0xFF, 0) ∧
    pcAnd 1 0xF ((((placed 0x8125).setReg 1 5).setReg 2 5).setReg 0xF 1) = some (0x202, 0, 0) := by decide

/-- V68: `V[Y]` is unused. -/
theorem test_shr : pcAnd 1 0xF (((placed 0x8126).setReg 1 5).setReg 2 0xAA) = some (0x202, 2, 1) := by decide

/-- V71, V73. -/
theorem test_subn :
    pcAnd 1 0xF (((placed 0x8127).setReg 1 2).setReg 2 1) = some (0x202, 0xFF, 0) ∧
    pcAnd 1 0xF (((placed 0x8127).setReg 1 0x10).setReg 2 0x30) = some (0x202, 0x20, 1) := by decide

/-- V79, V80: the flag is 1, not 0x80; it wins in VF. -/
theorem test_shl :
    pcAnd 1 0xF (((placed 0x8128).setReg 1 0x81).setReg 2 0x55) = some (0x202, 2, 1) ∧
    pcAnd 1 0xF ((placed 0x8F08).setReg 0xF 0x81) = some (0x202, 0, 1) := by decide

/-! ### Index, no-op, unrecognized and delegated words -/

/-- V87. -/
theorem test_loadI : seen (fun t => (t.pc, t.i)) (step ((placed 0xA001).setI 0x300)) = some (0x202, 0x001) := by decide

/-- V82, V83, V14. -/
theorem test_nop0_and_unrecognized0NNN :
    pcNotice (placed 0x0000) = some (0x202, none) ∧ pcNotice (placed 0x0123) = some (0x202, none) ∧
    pcSpSlot 0 (placedDepth 0x300 1 0x01EE) = some (0x302, 0, 0x202) := by decide

/-- V84, and R124 for the other six. -/
theorem test_unrecognized8XY :
    ([0x8109, 0x810A, 0x810B, 0x810C, 0x810D, 0x810E, 0x810F].all fun w =>
      pcAnd 1 0xF ((placed w).setReg 1 0x81) == some (0x202, 0x81, 0)) = true := by decide

/-- V81, V88 to V93, and R126 for the other rows: PC and the notice. -/
theorem test_delegated :
    ([0x00E0, 0xC1FF, 0xD125, 0xE19E, 0xE1A1, 0xE100, 0xF107, 0xF10A, 0xF115, 0xF118, 0xF11E, 0xF129, 0xF133, 0xF155,
      0xF165, 0xFFFF].all fun w => pcNotice (placed w) == some (0x202, some (BitVec.ofNat 16 w))) = true := by decide

/-- V88, V92: nothing else moves. -/
theorem test_delegated_moves_nothing :
    pcAnd 1 0xF ((placed 0xC1FF).setReg 1 0x12) = some (0x202, 0x12, 0) ∧
    seen (fun t => (t.i, t.reg 0, t.mem)) (step ((placed 0xF165).setI 0x300)) =
      some (0x300, 0, [(0x200, 0xF1#8), (0x201, 0x65#8)]) := by decide

/-- V88 with `DELEGATED_MODE = refuse` (R92). -/
theorem test_delegated_refused : stepWith refuse (placed 0xC1FF) = .refused (.delegatedRefused 0xC1FF#16) := rfl

/-! ### Fetch, RESET and LOAD, assembly -/

/-- V94, V95, V96. -/
theorem test_fetch :
    step (State.reset.setPc 0xFFF) = .fault .outOfBounds ∧
    pcAnd 0 0xF (placedAt 0xFFE 0x6001) = some (0x000, 1, 0) ∧
    pcAnd 0 0xF (placedAt 0x201 0x6001) = some (0x203, 1, 0) := ⟨rfl, by decide, by decide⟩

/-- V101, V104: bytes go to 0x200 upward, and the rest of memory stays. -/
theorem test_load :
    load [0x12#8, 0x34#8] State.reset = .ok { State.reset with mem := [(0x200, 0x12#8), (0x201, 0x34#8)] } ∧
    load [0xAB#8] { State.reset with mem := [(0x201, 0x34#8)] } =
      .ok { State.reset with mem := [(0x200, 0xAB#8), (0x201, 0x34#8)] } := by decide

/-- V100, V103: nothing to load, and one byte too many. -/
theorem test_load_edges :
    transact Params.reference State.reset (.load []) = .ok (State.reset, .ok) ∧
    transact Params.reference State.reset (.load (List.replicate 3585 0xAA#8)) = .ok (State.reset, .outOfBounds) :=
  have h : load (List.replicate 3585 0xAA#8) State.reset = .error .outOfBounds :=
    if_pos (by rw [List.length_replicate]; decide)
  ⟨rfl, by simp only [transact, h]; rfl⟩

/-- R149, R50: a byte of 0x00 takes its cell out of the list. -/
theorem test_load_zero :
    load [0x00#8] { State.reset with mem := [(0x200, 0x12#8), (0x201, 0x34#8)] } =
      .ok { State.reset with mem := [(0x201, 0x34#8)] } := by decide

/-- P1, P3: lines of the programs and their words; a register's name is no `V10`, an immediate keeps its field. -/
theorem test_assembler :
    assembleLine "CALL 0x204" = some 0x2204#16 ∧ assembleLine "LOAD-IMM V0, 0x01" = some 0x6001#16 ∧
    assembleLine "RETURN" = some 0x00EE#16 ∧ assembleLine "SHL V3, V3" = some 0x8338#16 ∧
    assembleLine "SUBN V4, V0" = some 0x8407#16 ∧ assembleLine "JUMP-OFFSET 0x214" = some 0xB214#16 ∧
    assembleLine "LOAD-IMM V0, 256" = none ∧ assembleLine "LOAD-IMM V10, 1" = none ∧
    assemble ["JUMP 0x20E", ".word 0x0000"] = some [0x12#8, 0x0E#8, 0x00#8, 0x00#8] := by decide

/-- R79: the inputs' request codes, and the outputs after a CALL. -/
theorem test_signals :
    Inputs.request ⟨0b00, 0, []⟩ = none ∧ Inputs.request ⟨0b01, 0, []⟩ = some .reset ∧
    Inputs.request ⟨0b10, 1, [0xAB]⟩ = some (.load [0xAB]) ∧ Inputs.request ⟨0b11, 0, []⟩ = some .step ∧
    seen (fun t => ((outputs (some .ok) 0x200 t).obsSp, (outputs (some .ok) 0x200 t).obsMemData))
      (step (placed 0x2204)) = some (1#5, 0x22#8) := by decide

/-! ### Witnesses: a concrete input for the hypotheses of every statement that has some -/

/-- `DecodeOfEncodeIsTheInstruction`: under each of the parameters. -/
theorem witness_wellFormed :
    (Instr.shl 0xF 0xF).wellFormed Params.reference = true ∧ (Instr.ret 0xF).wellFormed lowByte = true ∧
    (Instr.unrecognized5XYN 0x1 0x2 0xF).wellFormed strict = true ∧
    (Instr.delegatedFOther 0xF 0xFF).wellFormed refuse = true := by decide

/-- `UnrecognizedWordsAreThese`: each disjunct, and the clause on RETURN. -/
theorem witness_unrecognized :
    (decodeWord Params.reference 0x0001#16).isUnrecognized = true ∧
    (decodeWord Params.reference 0x8009#16).isUnrecognized = true ∧
    (decodeWord strict 0x5001#16).isUnrecognized = true ∧ (decodeWord strict 0x900F#16).isUnrecognized = true ∧
    (lowByte.zeroFamilyLowByteDecode = true ∧ fieldOp 0x0FEE#16 = 0x0#4 ∧ fieldNN 0x0FEE#16 = 0xEE#8) := by decide

/-- `DelegatedWordsAreThese`: both sides, at the edges of the families. -/
theorem witness_delegated :
    (decodeWord Params.reference 0x00E0#16).isDelegated = true ∧ (decodeWord strict 0xC000#16).isDelegated = true ∧
    (decodeWord lowByte 0xFFFF#16).isDelegated = true ∧ (decodeWord refuse 0xBFFF#16).isDelegated = false := by decide

/-- `delegatedWord` of a word, and not of another. -/
theorem witness_delegatedWord : delegatedWord 0xC1FF#16 ∧ ¬delegatedWord 0x6001#16 := by
  constructor
  · exact .inr (by decide)
  · rintro (h | h)
    · exact absurd h (by decide)
    · exact absurd h (by decide)

/-- `LoadCopiesOrIsRejectedWhole`: the longest LOAD that fits (V102), the shortest that does not (V103). -/
theorem witness_load :
    State.reset.mem.wf ∧ 0x200 + (List.replicate 3584 0xAA#8).length ≤ 4096 ∧
    4096 < 0x200 + (List.replicate 3585 0xAA#8).length ∧ (0 : Nat) < (List.replicate 3584 0xAA#8).length ∧
    (0x1FF#12).toNat < 0x200 ∧ 0x200 + [0x12#8].length ≤ (0xFFF#12).toNat := by
  refine ⟨by decide, ?_, ?_, ?_, by decide, by decide⟩ <;> rw [List.length_replicate] <;> decide

/-- `ObserveDeterminesTheState`. -/
theorem witness_observe :
    (placed 0x1234).mem.wf ∧ ∀ a, outputs none a (placed 0x1234) = outputs none a (placed 0x1234) :=
  ⟨by decide, fun _ => rfl⟩

/-- `AssemblerTableGivesTheInstructionsWord`: texts of registers and immediates, at the ends of their ranges. -/
theorem witness_operand_texts :
    immediate 12 "0xFFF".toList = some 0xFFF#12 ∧ immediate 8 "255".toList = some 0xFF#8 ∧
    immediate 16 "0xFFFF".toList = some 0xFFFF#16 ∧ register "V0".toList = some 0x0#4 ∧
    register "VF".toList = some 0xF#4 := by decide

/-- `FetchIsBigEndianAndBounded`: both sides of the bound. -/
theorem witness_fetch_bound :
    (State.reset.setPc 0xFFF).pc.toNat + 1 > 0xFFF ∧ (State.reset.setPc 0xFFE).pc.toNat + 1 ≤ 0xFFF := by decide

/-- `StepRunsTheDecodedInstruction`, `NoticeNamesTheDelegatedWord`, `ErrorsAreExactlyThese`: fetches that fail and do
not; a delegated word under each mode; the bytes at PC decode. -/
theorem witness_fetch :
    fetch (State.reset.setPc 0xFFF) = .error .outOfBounds ∧ fetch (placed 0xC1FF) = .ok 0xC1FF#16 ∧
    (refuse.delegatedMode = .refuse ∧ (decodeWord refuse 0xC1FF#16).isDelegated = true) ∧
    (placed 0x1234).pc ≠ 0xFFF#12 ∧
    decodeBytes Params.reference [(placed 0x1234).byte 0x200, (placed 0x1234).byte 0x201] =
      .ok (.jump 0x234, []) := by decide

/-- `PlacedInstructionRunsNext`. -/
theorem witness_placed : State.reset.mem.wf ∧ State.reset.pc ≠ 0xFFF#12 ∧ 0xFFFF < 65536 := by decide

/-- The result of a STEP, where it has one. -/
def stepResult (p : Params) (s : State) : Option Result :=
  match transact p s .step with
  | .ok (_, r) => some r
  | .error _ => none

/-- `ErrorsAreExactlyThese`, `FailedOperationChangesNothing`, `FailedStepFailsAgain`, `NoticeAcrossOperations`: every
error is reached. -/
theorem witness_errors :
    stepResult Params.reference (State.reset.setPc 0xFFF) = some .outOfBounds ∧
    stepResult Params.reference (placedDepth 0x200 16 0x2300) = some .stackOverflow ∧
    stepResult Params.reference (placed 0x00EE) = some .stackUnderflow ∧
    Result.outOfBounds ≠ .ok ∧ Result.stackOverflow ≠ .ok ∧ Result.stackUnderflow ≠ .ok := by decide

/-- `NoticeAcrossOperations`, `OnlyResetAndLoadIChangeI`, `EveryOperationKeepsTheInvariant`: a RESET and a LOAD have
their results, and LOAD-I changes I. -/
theorem witness_operations :
    (∃ t, transact refuse (placed 0xA2F0) .reset = .ok (t, .ok)) ∧
    (∃ t, transact refuse (placed 0xA2F0) (.load [0xAB#8]) = .ok (t, .ok)) ∧
    ∃ t, transact refuse (placed 0xA2F0) .step = .ok (t, .ok) ∧ t.i = 0x2F0#12 :=
  ⟨⟨_, rfl⟩, ⟨_, rfl⟩, _, rfl, rfl⟩

/-- `RefusedRunHasNoFinalState`, R92: a run refused at its second STEP, whatever the host would do next; the same run
under `nop` has a final state (R91). -/
theorem witness_refused_run :
    let program := [.load [0x60#8, 0x01#8, 0xC1#8, 0xFF#8], .step, .step, .load [0x12#8, 0x00#8], .step]
    runRequests refuse State.reset program = .error (.delegatedRefused 0xC1FF#16) ∧
    ∃ t, runRequests Params.reference State.reset program = .ok (t, List.replicate 5 .ok) :=
  ⟨rfl, _, rfl⟩

/-- `ErrorsAreExactlyThese`: the words and the SP of its two instructions. -/
theorem witness_error_words :
    decodeWord Params.reference 0x2300#16 = .call 0x300 ∧ (placedDepth 0x200 16 0x2300).sp = 15 ∧
    decodeWord Params.reference 0x00EE#16 = .ret 0 ∧ (placed 0x00EE).sp = -1 := by decide

/-- `OnlyDelegatedWordsAreRefused`. -/
theorem witness_refused : fetch (placed 0xC1FF) = .ok 0xC1FF#16 ∧
    stepWith refuse (placed 0xC1FF) = .refused (.delegatedRefused 0xC1FF#16) := ⟨by decide, rfl⟩

/-- `NoticeNamesTheDelegatedWord`, `NoStepWritesMemory`: STEPs with a next state, of a word of each kind. -/
theorem witness_next :
    (∃ t, stepWith Params.reference (placed 0xC1FF) = .next t) ∧ ∃ t, stepWith strict (placed 0x6001) = .next t :=
  ⟨⟨_, rfl⟩, ⟨_, rfl⟩⟩

/-- The statements of the instructions' words: one word of each family they name. -/
theorem witness_families :
    fieldOp 0x1FFF#16 = 0x1#4 ∧ fieldOp 0x2FFF#16 = 0x2#4 ∧ fieldOp 0x3FFF#16 = 0x3#4 ∧ fieldOp 0x4FFF#16 = 0x4#4 ∧
    fieldOp 0x5FFF#16 = 0x5#4 ∧ fieldOp 0x6FFF#16 = 0x6#4 ∧ fieldOp 0x7FFF#16 = 0x7#4 ∧ fieldOp 0x9FFF#16 = 0x9#4 ∧
    fieldOp 0xAFFF#16 = 0xA#4 ∧ fieldOp 0xBFFF#16 = 0xB#4 := by decide

/-- As `witness_families`, for the sub-opcodes 0 to 8 of family 0x8. -/
theorem witness_family_8 :
    ((List.range 9).all fun n => fieldOp (BitVec.ofNat 16 (0x8FF0 + n)) == 0x8#4 &&
      fieldN (BitVec.ofNat 16 (0x8FF0 + n)) == BitVec.ofNat 4 n) = true := by decide

/-- The statements of flags: a destination that is not VF. -/
theorem witness_not_VF : (0xE#4 : Nibble) ≠ 0xF#4 := by decide

/-- `JumpGoesToNNN`, `JumpOffsetAddsV0`: a target that is PC (V3), and a sum that is 0xFFF (V33). -/
theorem witness_jump_corners :
    (0x200#12 : Addr) = State.reset.pc ∧
    ((State.reset.setReg 0x0 0xFF).reg 0x0).toNat + (0xF00#12 : Addr).toNat = 0xFFF := by decide

/-- `CallPushesTheReturnAddress`, `ReturnPopsIntoPc`, `ReturnComesBackAfterTheCall`, `SeventeenthCallOverflows`,
`StackPrimitives`: SP at every boundary. -/
theorem witness_sp :
    (placedDepth 0x200 15 0x2300).sp = 14 ∧ (placedDepth 0x200 16 0x2300).sp = 15 ∧
    (placedDepth 0x200 1 0x00EE).sp = 0 ∧ (placedDepth 0x200 0 0x00EE).sp = -1 ∧
    ((0xF#4).toNat : Int) = (placedDepth 0x200 16 0x00EE).sp := by decide

/-- `PcAfterEveryInstruction`, `StackPrimitives`, `RegistersReadAndWritten`: instructions that complete, one of each
arm. -/
theorem witness_completes :
    ([Instr.jump 0xFFF, .call 0x300, .ret 0x0, .skipIfEq 0 0, .skipIfNeq 0 0, .skipIfRegEq 0 1 0, .skipIfRegNeq 0 1 0,
      .jumpOffset 0xFFF, .nop0, .add 0xF 0xF].all fun i =>
      (seen (·.pc) (exec i (placedDepth 0xFFE 1 0x0000))).isSome) = true := by decide

/-- `StackPrimitives`, `NoInstructionReadsI`: an instruction that is no CALL, RETURN or LOAD-I. -/
theorem witness_other_instruction :
    (∀ nnn, Instr.nop0 ≠ .call nnn) ∧ (∀ x, Instr.nop0 ≠ .ret x) ∧ ∀ nnn, Instr.nop0 ≠ .loadI nnn :=
  ⟨nofun, nofun, nofun⟩

/-- `FlagOverwriteWinsInVF`: members of both lists. -/
theorem witness_flag_lists (s : State) :
    (Instr.shl 0xF#4 0x1, AluOp.shl) ∈ [(Instr.add 0xF#4 0x1, AluOp.add), (.shl 0xF#4 0x1, .shl)] ∧
    (Instr.copy 0xF#4 0x1, AluOp.pass, s.reg 0x1) ∈ [(Instr.copy 0xF#4 0x1, AluOp.pass, s.reg 0x1)] := by
  constructor <;> simp

/-- `UnrecognizedWordsOnlyAdvance`, `DelegatedWordsOnlyRaiseTheNotice`. -/
theorem witness_kinds :
    (Instr.unrecognized0NNN 0x123).isUnrecognized = true ∧ (Instr.unrecognized8XYE 0xF 0xF).isUnrecognized = true ∧
    (Instr.unrecognized9XYN 0x1 0x2 0x3).isUnrecognized = true ∧ Instr.clear.isDelegated = true ∧
    (Instr.delegatedFOther 0xF 0xFF).isDelegated = true := by decide

/-- `RegistersReadAndWritten`: registers outside each list. -/
theorem witness_registers : 0x2#4 ∉ regsWritten (.add 0x1 0x2) ∧ 0xF#4 ∉ regsRead (.add 0x1 0x2) := by decide

/-- `ResetLoadStepNeverSeeSlotsAboveSp`: two states that differ above SP. -/
theorem witness_agree_below_sp :
    AgreeBelowSP (placedDepth 0x200 0 0x2300) (placed 0x2300) ∧ placedDepth 0x200 0 0x2300 ≠ placed 0x2300 :=
  ⟨⟨rfl, rfl, rfl, rfl, fun _ h => absurd h (Nat.not_lt_zero _), rfl, rfl⟩, by decide⟩

/-- `ZeroMemoryStepsAreNop0`: State.reset, and a state that is not it, at the top of memory with the stack full. -/
theorem witness_zero_memory :
    (∀ a, State.reset.byte a = 0x00#8) ∧ State.reset.pc.toNat % 2 = 0 ∧
    (∀ a, ({ State.reset with pc := 0xFFE#12, depth := 16 } : State).byte a = 0x00#8) ∧
    (0xFFE#12).toNat % 2 = 0 := ⟨fun _ => rfl, rfl, fun _ => rfl, rfl⟩

/-- `EveryOperationKeepsTheInvariant`. -/
theorem witness_invariant : (placed 0x6001).Inv ∧ ∃ t, step (placed 0x6001) = .next t :=
  ⟨⟨by decide, nofun⟩, _, rfl⟩

/-- `FixedPointsAreSelfJumps`: V3, and JUMP-OFFSET with `V0 = 0`; and a STEP that is none. -/
theorem witness_fixed_point :
    FixedPoint Params.reference (placed 0x1200) ∧ FixedPoint Params.reference (placed 0xB200) ∧
    ¬FixedPoint Params.reference (placed 0x0000) := by
  refine ⟨⟨_, rfl, rfl⟩, ⟨_, rfl, rfl⟩, ?_⟩
  rintro ⟨t, h, hs⟩
  have h' : seen (·.clearNotice.pc) (step (placed 0x0000)) = some 0x202#12 := by decide
  rw [step, h] at h'
  have hp : (placed 0x0000).clearNotice.pc = t.clearNotice.pc := congrArg State.pc hs
  have ht : t.pc = 0x202#12 := Option.some.inj h'
  exact absurd (hp.trans ht) (by decide)

/-- R157 (a): V13 ends in its error. -/
theorem witness_ends_in_error : EndsInError Params.reference (placed 0x00EE) .stackUnderflow := rfl

end Sys2Proof.Tests
end

/-! ## Proofs: the family of spec/10_state.md

First what one instruction is as a function of the state, then what each statement of the family needs of it. -/

namespace Sys2Proof.Machine

/-! ### The program counter as a number (R13, R96; D4) -/

theorem State.pcNext_toNat (s : State) : s.pcNext.toNat = (s.pc.toNat + 2) % 0x1000 := BitVec.toNat_add _ _

/-- PC after a skip whose condition is `P`. -/
theorem State.skipIf_pc_toNat (s : State) {c : Bool} {P : Prop} [Decidable P] (hc : c = true ↔ P) :
    (s.skipIf c).pc.toNat = (s.pc.toNat + if P then 4 else 2) % 0x1000 := by
  by_cases hP : P
  · rw [hc.2 hP, if_pos hP]; exact BitVec.toNat_add _ _
  · rw [Bool.eq_false_iff.2 (mt hc.1 hP), if_neg hP]; exact s.pcNext_toNat

/-- JUMP-OFFSET's target as a number (R101). -/
theorem operandAPlusV0_toNat (nnn : Addr) (s : State) :
    (operandAPlusV0 nnn s).toNat = ((s.reg 0x0#4).toNat + nnn.toNat) % 0x1000 := by
  have := (s.reg 0x0#4).isLt
  rw [operandAPlusV0, BitVec.toNat_add, BitVec.toNat_setWidth, Nat.mod_eq_of_lt (a := (s.reg 0x0#4).toNat) (by omega)]

/-! ### The stack, addressed by SP -/

theorem State.slot_ofNat (s : State) {n : Nat} (h : n < 16) : s.slot (BitVec.ofNat 4 n) = s.stack[n] := by
  have e : (BitVec.ofNat 4 n).toNat = n := by rw [BitVec.toNat_ofNat]; exact Nat.mod_eq_of_lt h
  simp [State.slot, e]

/-- Where the stack holds an entry, the slot SP names is its top (R34). -/
theorem State.slot_of_toNat_eq_sp {s : State} {k : Nibble} {d : Nat} (hd : d < 16) (hs : s.depth.val = d + 1)
    (hk : (k.toNat : Int) = s.sp) : s.slot k = s.stack[d] := by
  have e : k.toNat = d := by unfold State.sp at hk; omega
  simp [State.slot, e]

theorem State.slot_of_stack_eq {s t : State} (h : t.stack = s.stack) (k : Nibble) : t.slot k = s.slot k := by
  simp [State.slot, h]

theorem State.reg_of_v_eq {s t : State} (h : t.v = s.v) (r : Nibble) : t.reg r = s.reg r := by
  simp [State.reg, h]

theorem State.sp_of_depth_eq {s t : State} (h : t.depth = s.depth) : t.sp = s.sp := by
  simp [State.sp, h]

theorem State.sp_eq_fifteen (s : State) : s.sp = 15 ↔ s.depth.val = 16 := by unfold State.sp; omega

theorem State.sp_eq_neg_one (s : State) : s.sp = -1 ↔ s.depth.val = 0 := by unfold State.sp; omega

/-- A `Push` with room writes the slot that the new SP names, and no other (R35). -/
theorem push_ok_slot {s t : State} {a : Addr} (h : push a s = .ok t) (k : Nibble) :
    t.slot k = if (k.toNat : Int) = t.sp then a else s.slot k := by
  obtain ⟨hd, hdepth, hstack, -⟩ := push_ok h
  have hsp : (k.toNat : Int) = t.sp ↔ s.depth.val = k.toNat := by unfold State.sp; omega
  simp only [State.slot, hstack, Vector.getElem_set, hsp]

/-! ### What an instruction is, as a function of the state

`exec_next` names the shapes of a next state. Here the shape is of the instruction: the same for every state, with the
registers its values are read from, so that the answers of one instruction in two states can be compared. -/

/-- A value got from the register file depends on the registers of `rs` alone. -/
def ReadsOnly {α : Type} (rs : List Nibble) (f : (Nibble → Byte) → α) : Prop :=
  ∀ v w, (∀ r ∈ rs, v r = w r) → f v = f w

theorem readsOnly_const {α : Type} (rs : List Nibble) (a : α) : ReadsOnly rs fun _ => a := fun _ _ _ => rfl

/-- A function of `V[x]` alone. -/
theorem readsOnly_one {α : Type} (x : Nibble) (g : Byte → α) : ReadsOnly [x] fun v => g (v x) :=
  fun _ _ h => congrArg g (h x (by simp))

/-- A function of `V[x]` and `V[y]` alone. -/
theorem readsOnly_two {α : Type} (x y : Nibble) (g : Byte → Byte → α) : ReadsOnly [x, y] fun v => g (v x) (v y) :=
  fun _ _ h => congrArg₂ g (h x (by simp)) (h y (by simp))

/-- What a value reads only of `rs`, a write to a register outside `rs` leaves as it was. -/
theorem ReadsOnly.setReg {α : Type} {rs : List Nibble} {f : (Nibble → Byte) → α} (hf : ReadsOnly rs f) {r : Nibble}
    (hr : r ∉ rs) (s : State) (b : Byte) : f (s.setReg r b).reg = f s.reg :=
  hf _ _ fun _ hq => s.reg_setReg_of_ne b fun e => hr (e ▸ hq)

/-- The writes of an ALU instruction (R105): the result to `V[x]`, the flag if there is one, then PC. -/
def State.writeBack (s : State) (x : Nibble) (rf : Byte × Option Flag) : State :=
  ((s.setReg x rf.1).setFlag rf.2).advance

/-- `writeBack` is the ALU's step, with the ALU's answer as an argument. -/
theorem aluStep_eq_writeBack (op : AluOp) (x : Nibble) (ab : Byte × Byte) (s : State) :
    aluStep op x ab s = s.writeBack x (alu op ab.1 ab.2) := rfl

/-- The registers `writeBack` writes: `VF` too where there is a flag. -/
def writeBackRegs (x : Nibble) : Option Flag → List Nibble
  | none => [x]
  | some _ => [x, flagReg]

theorem State.writeBack_reg_of_notMem (s : State) {x r : Nibble} {rf : Byte × Option Flag}
    (h : r ∉ writeBackRegs x rf.2) : (s.writeBack x rf).reg r = s.reg r := by
  obtain ⟨b, _ | f⟩ := rf
  · have hx : r ≠ x := by simpa [writeBackRegs] using h
    simp [State.writeBack, s.reg_setReg_of_ne _ hx]
  · obtain ⟨hx, hf⟩ : r ≠ x ∧ r ≠ flagReg := by simpa [writeBackRegs] using h
    simp [State.writeBack, State.reg_setReg_of_ne _ _ hf, s.reg_setReg_of_ne _ hx]

theorem State.advance_setReg (s : State) (r : Nibble) (b : Byte) : (s.setReg r b).advance = s.advance.setReg r b := rfl

/-- A register that `writeBack` writes forgets its old value. -/
theorem State.writeBack_setReg_of_mem (s : State) {x r : Nibble} {rf : Byte × Option Flag}
    (h : r ∈ writeBackRegs x rf.2) (b : Byte) : (s.setReg r b).writeBack x rf = s.writeBack x rf := by
  obtain ⟨c, _ | f⟩ := rf
  · obtain rfl : r = x := by simpa [writeBackRegs] using h
    simp [State.writeBack]
  · by_cases hx : r = x
    · subst hx; simp [State.writeBack]
    · obtain rfl : r = flagReg := by simpa [writeBackRegs, hx] using h
      simp [State.writeBack, s.setReg_comm _ _ hx]

/-- Any other register keeps its old value. -/
theorem State.writeBack_setReg_of_notMem (s : State) {x r : Nibble} {rf : Byte × Option Flag}
    (h : r ∉ writeBackRegs x rf.2) (b : Byte) : (s.setReg r b).writeBack x rf = (s.writeBack x rf).setReg r b := by
  obtain ⟨c, _ | f⟩ := rf
  · have hx : r ≠ x := by simpa [writeBackRegs] using h
    simp [State.writeBack, s.setReg_comm _ _ hx, State.advance_setReg]
  · obtain ⟨hx, hf⟩ : r ≠ x ∧ r ≠ flagReg := by simpa [writeBackRegs] using h
    simp [State.writeBack, s.setReg_comm _ _ hx, State.setReg_comm _ _ _ hf, State.advance_setReg]

theorem State.writeBack_setI (s : State) (a : Addr) (x : Nibble) (rf : Byte × Option Flag) :
    (s.setI a).writeBack x rf = (s.writeBack x rf).setI a := by
  obtain ⟨c, _ | f⟩ := rf <;> rfl

/-- An instruction is CALL, RETURN or LOAD-I; or it only gives PC a value made of registers and PC; or it writes back a
result and a flag made of registers; or it raises the notice. The registers are those of R23. -/
inductive ExecShape (i : Instr) : Prop where
  | call (nnn : Addr) (hi : i = .call nnn)
  | ret (x : Nibble) (hi : i = .ret x)
  | loadI (nnn : Addr) (hi : i = .loadI nnn)
  | setPc (target : Addr → (Nibble → Byte) → Addr) (hexec : ∀ s, exec i s = .next (s.setPc (target s.pc s.reg)))
      (hread : ∀ pc, ReadsOnly (regsRead i) (target pc)) (hwrite : regsWritten i = [])
  | writeBack (x : Nibble) (rf : (Nibble → Byte) → Byte × Option Flag)
      (hexec : ∀ s, exec i s = .next (s.writeBack x (rf s.reg)))
      (hread : ReadsOnly (regsRead i) rf) (hwrite : ∀ v, regsWritten i = writeBackRegs x (rf v).2)
  | delegate (hexec : ∀ s, exec i s = .next (s.delegate (encode i))) (hwrite : regsWritten i = [])

/-- A skip only gives PC a value (R96). -/
theorem ExecShape.of_skipIf {i : Instr} {cond : (Nibble → Byte) → Bool}
    (hread : ReadsOnly (regsRead i) cond) (hexec : ∀ s, exec i s = .next (s.skipIf (cond s.reg)))
    (hwrite : regsWritten i = []) : ExecShape i :=
  .setPc (fun pc v => if cond v then pc + 4#12 else pc + 2#12)
    (fun s => (hexec s).trans (congrArg _ (s.skipIf_eq_setPc _))) (fun pc v w h => by simp only [hread v w h]) hwrite

/-- An ALU instruction that reads both registers of form RR (R105). -/
theorem ExecShape.of_aluRR {i : Instr} {op : AluOp} {x y : Nibble} (hread : regsRead i = [x, y])
    (hexec : ∀ s, exec i s = .next (aluStep op x (operandsRR x y s) s))
    (hwrite : ∀ a b, regsWritten i = writeBackRegs x (alu op a b).2) : ExecShape i :=
  .writeBack x (fun v => alu op (v x) (v y)) (fun s => (hexec s).trans (congrArg _ (aluStep_eq_writeBack ..)))
    (hread ▸ readsOnly_two x y (alu op)) fun v => hwrite (v x) (v y)

/-- Every instruction has one of the shapes. -/
theorem execShape (i : Instr) : ExecShape i := by
  cases i with
  | call nnn => exact .call nnn rfl
  | ret x => exact .ret x rfl
  | loadI nnn => exact .loadI nnn rfl
  | jump nnn => exact .setPc (fun _ _ => nnn) (fun _ => rfl) (fun _ => readsOnly_const _ _) rfl
  | jumpOffset nnn =>
    exact .setPc (fun _ v => (v 0x0#4).setWidth 12 + nnn) (fun _ => rfl)
      (fun _ => readsOnly_one 0x0#4 fun b => b.setWidth 12 + nnn) rfl
  | skipIfEq x nn => exact .of_skipIf (readsOnly_one x (· == nn)) (fun _ => rfl) rfl
  | skipIfNeq x nn => exact .of_skipIf (readsOnly_one x (· != nn)) (fun _ => rfl) rfl
  | skipIfRegEq x y _ => exact .of_skipIf (readsOnly_two x y (· == ·)) (fun _ => rfl) rfl
  | skipIfRegNeq x y _ => exact .of_skipIf (readsOnly_two x y (· != ·)) (fun _ => rfl) rfl
  | nop0 | unrecognized0NNN _ | unrecognized8XY9 _ _ | unrecognized8XYA _ _ | unrecognized8XYB _ _
  | unrecognized8XYC _ _ | unrecognized8XYD _ _ | unrecognized8XYE _ _ | unrecognized8XYF _ _
  | unrecognized5XYN _ _ _ | unrecognized9XYN _ _ _ =>
    exact .setPc (fun pc _ => pc + 2#12) (fun _ => rfl) (fun _ => readsOnly_const _ _) rfl
  | loadImm x nn => exact .writeBack x (fun _ => (nn, none)) (fun _ => rfl) (readsOnly_const _ _) fun _ => rfl
  | addImm x nn =>
    exact .writeBack x (fun v => (v x + nn, none)) (fun _ => rfl) (readsOnly_one x fun a => (a + nn, none)) fun _ => rfl
  | copy x y =>
    exact .writeBack x (fun v => (v y, none)) (fun _ => rfl) (readsOnly_one y fun b => (b, none)) fun _ => rfl
  | or _ _ | and _ _ | xor _ _ | add _ _ | sub _ _ | subn _ _ => exact .of_aluRR rfl (fun _ => rfl) fun _ _ => rfl
  | shr x _ =>
    exact .writeBack x (fun v => (v x >>> 1, some (lowBitFlag (v x)))) (fun _ => rfl)
      (readsOnly_one x fun a => (a >>> 1, some (lowBitFlag a))) fun _ => rfl
  | shl x _ =>
    exact .writeBack x (fun v => (v x <<< 1, some (highBitFlag (v x)))) (fun _ => rfl)
      (readsOnly_one x fun a => (a <<< 1, some (highBitFlag a))) fun _ => rfl
  | clear | drawRandom _ _ | drawSprite _ _ _ | keySkipPressed _ | keySkipNotPressed _ | delegatedEOther _ _
  | timerReadDelay _ | waitKey _ | timerSetDelay _ | timerSetSound _ | delegatedFX1E _ | delegatedFX29 _
  | delegatedFX33 _ | delegatedFX55 _ | delegatedFX65 _ | delegatedFOther _ _ =>
    exact .delegate (fun _ => rfl) rfl

/-! ### CALL and RETURN, as what the stack answers -/

theorem exec_call (nnn : Addr) (s : State) :
    exec (.call nnn) s = answer ((push s.pcNext s).map fun t => t.setPc nnn) := rfl

theorem exec_ret (x : Nibble) (s : State) : exec (.ret x) s = answer ((pop s).map fun r => r.2.setPc r.1) := rfl

theorem exec_call_next {nnn : Addr} {s t : State} (h : exec (.call nnn) s = .next t) :
    ∃ u, push s.pcNext s = .ok u ∧ t = u.setPc nnn := by
  rw [exec_call] at h
  cases hp : push s.pcNext s with
  | error e => rw [hp] at h; cases h
  | ok u => rw [hp] at h; cases h; exact ⟨u, rfl, rfl⟩

theorem exec_ret_next {x : Nibble} {s t : State} (h : exec (.ret x) s = .next t) :
    ∃ a u, pop s = .ok (a, u) ∧ t = u.setPc a := by
  rw [exec_ret] at h
  cases hp : pop s with
  | error e => rw [hp] at h; cases h
  | ok r => rw [hp] at h; cases h; exact ⟨r.1, r.2, rfl, rfl⟩

/-- The general registers changed by `g` and I by `h`: what neither `Push` nor `Pop` looks at. -/
def State.mapRegsI (g : Vector Byte 16 → Vector Byte 16) (h : Addr → Addr) (s : State) : State :=
  { s with v := g s.v, i := h s.i }

theorem exec_call_mapRegsI (g : Vector Byte 16 → Vector Byte 16) (h : Addr → Addr) (nnn : Addr) (s : State) :
    exec (.call nnn) (s.mapRegsI g h) = mapNext (State.mapRegsI g h) (exec (.call nnn) s) := by
  by_cases hd : s.depth.val < 16
  · have hd' : (s.mapRegsI g h).depth.val < 16 := hd
    rw [exec_call, exec_call, push_of_lt _ hd, push_of_lt _ hd']; rfl
  · have hfull : s.depth.val = 16 := by omega
    have hfull' : (s.mapRegsI g h).depth.val = 16 := hfull
    rw [exec_call, exec_call, push_error.2 ⟨rfl, hfull⟩, push_error.2 ⟨rfl, hfull'⟩]; rfl

theorem exec_ret_mapRegsI (g : Vector Byte 16 → Vector Byte 16) (h : Addr → Addr) (x : Nibble) (s : State) :
    exec (.ret x) (s.mapRegsI g h) = mapNext (State.mapRegsI g h) (exec (.ret x) s) := by
  by_cases hd : 0 < s.depth.val
  · have hd' : 0 < (s.mapRegsI g h).depth.val := hd
    rw [exec_ret, exec_ret, pop_of_pos hd, pop_of_pos hd']; rfl
  · have hempty : s.depth.val = 0 := by omega
    have hempty' : (s.mapRegsI g h).depth.val = 0 := hempty
    rw [exec_ret, exec_ret, pop_error.2 ⟨rfl, hempty⟩, pop_error.2 ⟨rfl, hempty'⟩]; rfl

/-! ### Slots above SP (R36) -/

namespace AgreeBelowSP

theorem refl (s : State) : AgreeBelowSP s s := ⟨rfl, rfl, rfl, rfl, fun _ _ => rfl, rfl, rfl⟩

theorem reg_eq {s t : State} (h : AgreeBelowSP s t) : t.reg = s.reg := funext fun r => State.reg_of_v_eq h.v r

theorem setPc {s t : State} (h : AgreeBelowSP s t) (a : Addr) : AgreeBelowSP (s.setPc a) (t.setPc a) :=
  { h with pc := rfl }

theorem advance {s t : State} (h : AgreeBelowSP s t) : AgreeBelowSP s.advance t.advance := by
  have hpc : t.pcNext = s.pcNext := congrArg (· + 2#12) h.pc
  rw [State.advance, State.advance, hpc]
  exact h.setPc _

theorem setI {s t : State} (h : AgreeBelowSP s t) (a : Addr) : AgreeBelowSP (s.setI a) (t.setI a) :=
  { h with i := rfl }

theorem clearNotice {s t : State} (h : AgreeBelowSP s t) : AgreeBelowSP s.clearNotice t.clearNotice :=
  { h with notice := rfl }

theorem raiseNotice {s t : State} (h : AgreeBelowSP s t) (w : Word) :
    AgreeBelowSP (s.raiseNotice w) (t.raiseNotice w) :=
  { h with notice := rfl }

theorem setReg {s t : State} (h : AgreeBelowSP s t) (r : Nibble) (b : Byte) :
    AgreeBelowSP (s.setReg r b) (t.setReg r b) :=
  { h with v := by simp only [State.setReg, h.v] }

theorem setFlag {s t : State} (h : AgreeBelowSP s t) (f : Option Flag) : AgreeBelowSP (s.setFlag f) (t.setFlag f) := by
  cases f with
  | none => exact h
  | some f => exact h.setReg _ _

theorem writeBack {s t : State} (h : AgreeBelowSP s t) (x : Nibble) (rf : Byte × Option Flag) :
    AgreeBelowSP (s.writeBack x rf) (t.writeBack x rf) :=
  ((h.setReg x rf.1).setFlag rf.2).advance

theorem withMem {s t : State} (h : AgreeBelowSP s t) (m : Memory) :
    AgreeBelowSP { s with mem := m } { t with mem := m } :=
  { h with mem := rfl }

end AgreeBelowSP

/-- Two answers are the same error or refusal, or next states that agree below SP. -/
inductive AnswersAgree : Answer → Answer → Prop where
  | next {s t : State} (h : AgreeBelowSP s t) : AnswersAgree (.next s) (.next t)
  | fault (e : Fault) : AnswersAgree (.fault e) (.fault e)
  | refused (r : Refusal) : AnswersAgree (.refused r) (.refused r)

theorem AgreeBelowSP.depth_val {s t : State} (h : AgreeBelowSP s t) : t.depth.val = s.depth.val :=
  congrArg Fin.val h.depth

/-- `Push` writes the same address to the same slot, so one more slot agrees. -/
theorem exec_call_agree {s t : State} (h : AgreeBelowSP s t) (nnn : Addr) :
    AnswersAgree (exec (.call nnn) s) (exec (.call nnn) t) := by
  have hpc : t.pcNext = s.pcNext := congrArg (· + 2#12) h.pc
  rw [exec_call, exec_call, hpc]
  by_cases hroom : s.depth.val < 16
  · rw [push_of_lt _ hroom, push_of_lt _ (h.depth_val ▸ hroom)]
    refine .next { h with pc := rfl, depth := by simp [h.depth_val], slot := fun k hk => ?_ }
    have hle : k.toNat < s.depth.val + 1 := hk
    by_cases htop : k.toNat = s.depth.val
    · simp [State.slot, h.depth_val, htop]
    · have hbelow := h.slot k (by omega)
      simpa [State.slot, h.depth_val, Vector.getElem_set, Ne.symm htop] using hbelow
  · have hfull : s.depth.val = 16 := by omega
    rw [push_error.2 ⟨rfl, hfull⟩, push_error.2 ⟨rfl, h.depth_val.trans hfull⟩]
    exact .fault _

/-- `Pop` answers the slot at SP, where the states agree. -/
theorem exec_ret_agree {s t : State} (h : AgreeBelowSP s t) (x : Nibble) :
    AnswersAgree (exec (.ret x) s) (exec (.ret x) t) := by
  rw [exec_ret, exec_ret]
  by_cases hpos : 0 < s.depth.val
  · have htop : t.stack[s.depth.val - 1] = s.stack[s.depth.val - 1] := by
      rw [← State.slot_ofNat, ← State.slot_ofNat]
      exact h.slot _ (by simp; omega)
    rw [pop_of_pos hpos, pop_of_pos (h.depth_val ▸ hpos)]
    exact .next { h with
      pc := by simpa [h.depth_val] using htop
      depth := by simp [h.depth_val]
      slot := fun k hk => h.slot k (Nat.lt_of_lt_of_le hk (Nat.sub_le _ 1)) }
  · have hempty : s.depth.val = 0 := by omega
    rw [pop_error.2 ⟨rfl, hempty⟩, pop_error.2 ⟨rfl, h.depth_val.trans hempty⟩]
    exact .fault _

/-- An instruction answers alike in states that agree below SP. -/
theorem exec_agree {s t : State} (h : AgreeBelowSP s t) (i : Instr) : AnswersAgree (exec i s) (exec i t) := by
  cases execShape i with
  | call nnn hi => subst hi; exact exec_call_agree h nnn
  | ret x hi => subst hi; exact exec_ret_agree h x
  | loadI nnn hi => subst hi; exact .next (h.setI nnn).advance
  | setPc target hexec => rw [hexec, hexec, h.pc, h.reg_eq]; exact .next (h.setPc _)
  | writeBack x rf hexec => rw [hexec, hexec, h.reg_eq]; exact .next (h.writeBack _ _)
  | delegate hexec => rw [hexec, hexec]; exact .next (h.raiseNotice _).advance

theorem fetch_agree {s t : State} (h : AgreeBelowSP s t) : fetch t = fetch s := by simp only [fetch, h.pc, h.mem]

theorem stepWith_agree {s t : State} (h : AgreeBelowSP s t) (p : Params) :
    AnswersAgree (stepWith p s) (stepWith p t) := by
  cases hf : fetch s with
  | error e =>
    rw [stepWith_of_fetch_error hf, stepWith_of_fetch_error ((fetch_agree h).trans hf)]
    exact .fault e
  | ok w =>
    rw [stepWith_of_fetch_ok hf, stepWith_of_fetch_ok ((fetch_agree h).trans hf)]
    split
    · exact .refused _
    · exact exec_agree h.clearNotice _

/-- Two transactions or runs are the same refusal, or have the same results and states that agree below SP. -/
inductive RunsAgree {α : Type} : Except Refusal (State × α) → Except Refusal (State × α) → Prop where
  | ok {s t : State} (h : AgreeBelowSP s t) (a : α) : RunsAgree (.ok (s, a)) (.ok (t, a))
  | error (r : Refusal) : RunsAgree (.error r) (.error r)

namespace RunsAgree

theorem map_snd {α β : Type} {x y : Except Refusal (State × α)} (h : RunsAgree x y) (f : α → β) :
    RunsAgree (x.map fun u => (u.1, f u.2)) (y.map fun u => (u.1, f u.2)) := by
  cases h with
  | ok h a => exact .ok h (f a)
  | error r => exact .error r

theorem error_iff {α : Type} {x y : Except Refusal (State × α)} (h : RunsAgree x y) (r : Refusal) :
    x = .error r ↔ y = .error r := by
  cases h with
  | ok => exact ⟨nofun, nofun⟩
  | error => exact Iff.rfl

theorem exists_ok {α : Type} {x y : Except Refusal (State × α)} (h : RunsAgree x y) {s : State} {a : α}
    (hx : x = .ok (s, a)) : ∃ t, y = .ok (t, a) ∧ AgreeBelowSP s t := by
  cases h with
  | ok h => cases hx; exact ⟨_, rfl, h⟩
  | error => cases hx

end RunsAgree

theorem load_agree {s t : State} (h : AgreeBelowSP s t) (p : Params) (bytes : List Byte) :
    RunsAgree (transact p s (.load bytes)) (transact p t (.load bytes)) := by
  by_cases hlong : programStart.toNat + bytes.length > memorySize
  · simp only [transact, load, if_pos hlong]
    exact .ok h _
  · simp only [transact, load, if_neg hlong, h.mem]
    exact .ok (h.withMem _) _

theorem transact_agree {s t : State} (h : AgreeBelowSP s t) (p : Params) (q : Request) :
    RunsAgree (transact p s q) (transact p t q) := by
  cases q with
  | reset => exact .ok (.refl _) _
  | load bytes => exact load_agree h p bytes
  | step =>
    have hstep := stepWith_agree h p
    simp only [transact]
    generalize stepWith p s = x at hstep
    generalize stepWith p t = y at hstep
    cases hstep with
    | next h' => exact .ok h' _
    | fault e => exact .ok h.clearNotice _
    | refused r => exact .error r

theorem runRequests_agree {s t : State} (h : AgreeBelowSP s t) (p : Params) (qs : List Request) :
    RunsAgree (runRequests p s qs) (runRequests p t qs) := by
  induction qs generalizing s t with
  | nil => exact .ok h []
  | cons q qs ih =>
    have hq := transact_agree h p q
    cases hs : transact p s q with
    | error r =>
      rw [runRequests_cons_error hs, runRequests_cons_error ((hq.error_iff r).1 hs)]
      exact .error r
    | ok u =>
      obtain ⟨t', ht, h'⟩ := hq.exists_ok hs
      rw [runRequests_cons_ok hs, runRequests_cons_ok ht]
      exact (ih h').map_snd (u.2 :: ·)

/-- Settles O56: transaction by transaction, the two runs stay in states that agree below SP. -/
theorem resetLoadStepNeverSeeSlotsAboveSp : Obligations.ResetLoadStepNeverSeeSlotsAboveSp := by
  intro p s t qs h
  have hruns := runRequests_agree h p qs
  exact ⟨hruns.error_iff, fun s' results hs => hruns.exists_ok hs⟩

/-! ### The invariant -/

/-- The word of a delegated instruction is one a notice may name (R73). -/
theorem delegatedWord_encode {i : Instr} (h : i.isDelegated = true) : delegatedWord (encode i) := by
  cases i with
  | clear => exact .inl rfl
  | drawRandom _ _ | keySkipPressed _ | keySkipNotPressed _ | delegatedEOther _ _ | timerReadDelay _ | waitKey _
  | timerSetDelay _ | timerSetSound _ | delegatedFX1E _ | delegatedFX29 _ | delegatedFX33 _ | delegatedFX55 _
  | delegatedFX65 _ | delegatedFOther _ _ => exact .inr (by rw [encode, fieldOp_wordRI]; decide)
  | drawSprite _ _ _ => exact .inr (by rw [encode, fieldOp_wordRR]; decide)
  | _ => cases h

/-- The notice is as it was, but after a delegated instruction, which leaves its word there (R91). -/
theorem exec_notice {i : Instr} {s t : State} (h : exec i s = .next t) :
    t.notice = s.notice ∨ (i.isDelegated = true ∧ t.notice = some (encode i)) := by
  obtain ⟨a, rfl⟩ | ⟨op, x, ab, rfl⟩ | ⟨a, u, -, hu, rfl⟩ | ⟨x, a, u, -, hu, rfl⟩ | ⟨a, -, rfl⟩ | ⟨hi, rfl⟩ := exec_next h
  · exact .inl rfl
  · exact .inl (aluStep_notice ..)
  · obtain ⟨-, -, -, -, -, -, -, hn⟩ := push_ok hu; exact .inl hn
  · obtain ⟨-, -, -, -, -, -, -, -, -, -, hn⟩ := pop_ok hu; exact .inl hn
  · exact .inl rfl
  · exact .inr ⟨hi, rfl⟩

theorem State.Inv.clearNotice {s : State} (h : s.Inv) : s.clearNotice.Inv := ⟨h.1, nofun⟩

theorem State.inv_reset : State.Inv State.reset := ⟨Memory.reset_wf, nofun⟩

theorem exec_inv {i : Instr} {s t : State} (hs : s.Inv) (h : exec i s = .next t) : t.Inv := by
  obtain ⟨hwf, hnotice⟩ := hs
  refine ⟨exec_mem h ▸ hwf, fun w hw => ?_⟩
  rcases exec_notice h with hold | ⟨hi, hnew⟩
  · exact hnotice w (hold ▸ hw)
  · obtain rfl : encode i = w := Option.some.inj (hnew.symm.trans hw)
    exact delegatedWord_encode hi

theorem stepWith_inv {p : Params} {s t : State} (hs : s.Inv) (h : stepWith p s = .next t) : t.Inv := by
  obtain ⟨w, -, -, hexec⟩ := stepWith_next h
  exact exec_inv hs.clearNotice hexec

/-- LOAD touches memory alone (R149). -/
theorem load_ok {bytes : List Byte} {s t : State} (h : load bytes s = .ok t) : ∃ m, t = { s with mem := m } := by
  unfold load at h
  split at h
  · cases h
  · cases h; exact ⟨_, rfl⟩

theorem load_inv {bytes : List Byte} {s t : State} (hs : s.Inv) (h : load bytes s = .ok t) : t.Inv := by
  obtain ⟨hwf, hnotice⟩ := hs
  have hmem := load_wf h hwf
  obtain ⟨m, rfl⟩ := load_ok h
  exact ⟨hmem, hnotice⟩

theorem transact_inv {p : Params} {s t : State} {q : Request} {r : Result} (hs : s.Inv)
    (h : transact p s q = .ok (t, r)) : t.Inv := by
  obtain ⟨-, rfl, -⟩ | ⟨_, -, hl, -⟩ | ⟨_, _, -, -, rfl, -⟩ | ⟨-, hstep, -⟩ | ⟨_, -, -, rfl, -⟩ := transact_ok h
  · exact State.inv_reset
  · exact load_inv hs hl
  · exact hs
  · exact stepWith_inv hs hstep
  · exact hs.clearNotice

/-- Settles O57: RESET and LOAD by the laws of memory, a STEP by what an instruction can do to memory and notice. -/
theorem everyOperationKeepsTheInvariant : Obligations.EveryOperationKeepsTheInvariant :=
  ⟨fun _ _ _ _ _ hs h => transact_inv hs h, fun _ _ hs h => stepWith_inv hs h⟩

/-- Settles O58: the reset memory is the empty list, and there is no notice. -/
theorem resetHasTheInvariant : Obligations.ResetHasTheInvariant := State.inv_reset

/-! ### Reset -/

@[simp] theorem State.reset_reg (r : Nibble) : State.reset.reg r = 0x00#8 := by simp [State.reg, State.reset]

@[simp] theorem State.reset_slot (k : Nibble) : State.reset.slot k = 0x000#12 := by simp [State.slot, State.reset]

@[simp] theorem State.reset_byte (a : Addr) : State.reset.byte a = 0x00#8 := rfl

/-- Settles O8: the values of R40, element by element. -/
theorem resetLeavesTheseValues : Obligations.ResetLeavesTheseValues := fun _ _ =>
  ⟨State.reset, rfl, State.reset_reg, rfl, rfl, State.reset_slot, rfl, State.reset_byte⟩

/-! ### PC after an instruction (R27) -/

/-- RETURN goes to the slot SP names (R95). -/
theorem exec_ret_pc {x : Nibble} {s t : State} (h : exec (.ret x) s = .next t) (k : Nibble)
    (hk : (k.toNat : Int) = s.sp) : t.pc = s.slot k := by
  obtain ⟨a, u, hu, rfl⟩ := exec_ret_next h
  obtain ⟨d, hd, hs, -, htop, -⟩ := pop_ok hu
  exact htop.trans (State.slot_of_toNat_eq_sp hd hs hk).symm

/-- Settles O31, by the kinds of R27: the jumps, the stack, the skips, and `PC + 2` for the rest. -/
theorem pcAfterEveryInstruction : Obligations.PcAfterEveryInstruction := by
  intro i s t h
  cases i with
  | jump nnn => cases h; rfl
  | call nnn => obtain ⟨u, -, rfl⟩ := exec_call_next h; rfl
  | ret x => exact exec_ret_pc h
  | jumpOffset nnn => cases h; exact operandAPlusV0_toNat nnn s
  | skipIfEq x nn => cases h; exact s.skipIf_pc_toNat beq_iff_eq
  | skipIfNeq x nn => cases h; exact s.skipIf_pc_toNat bne_iff_ne
  | skipIfRegEq x y n => cases h; exact s.skipIf_pc_toNat beq_iff_eq
  | skipIfRegNeq x y n => cases h; exact s.skipIf_pc_toNat bne_iff_ne
  | _ => cases h; exact s.pcNext_toNat

/-! ### The stack primitives and who uses them (R35) -/

/-- An instruction other than CALL and RETURN leaves the stack alone. -/
theorem exec_stack_depth {i : Instr} {s t : State} (h : exec i s = .next t) (hcall : ∀ nnn, i ≠ .call nnn)
    (hret : ∀ x, i ≠ .ret x) : t.stack = s.stack ∧ t.depth = s.depth := by
  obtain ⟨a, rfl⟩ | ⟨op, x, ab, rfl⟩ | ⟨a, u, hi, -⟩ | ⟨x, a, u, hi, -⟩ | ⟨a, -, rfl⟩ | ⟨-, rfl⟩ := exec_next h
  · exact ⟨rfl, rfl⟩
  · exact ⟨aluStep_stack .., aluStep_depth ..⟩
  · exact absurd hi (hcall a)
  · exact absurd hi (hret x)
  · exact ⟨rfl, rfl⟩
  · exact ⟨rfl, rfl⟩

/-- `Push` with room (R35). -/
theorem push_of_sp_ne {s : State} (a : Addr) (h : s.sp ≠ 15) :
    ∃ t, push a s = .ok t ∧ t.sp = s.sp + 1 ∧ (∀ k : Nibble, t.slot k = if (k.toNat : Int) = t.sp then a else s.slot k) ∧
      (∀ r, t.reg r = s.reg r) ∧ t.pc = s.pc ∧ t.i = s.i ∧ ∀ b, t.byte b = s.byte b := by
  have hroom : s.depth.val < 16 := by
    have := mt s.sp_eq_fifteen.2 h
    omega
  have hp := push_of_lt a hroom
  exact ⟨_, hp, by simp [State.sp], push_ok_slot hp, fun _ => rfl, rfl, rfl, fun _ => rfl⟩

/-- `Pop` with an entry (R35). -/
theorem pop_of_sp_ne {s : State} (h : s.sp ≠ -1) :
    ∃ (k : Nibble) (t : State), pop s = .ok (s.slot k, t) ∧ (k.toNat : Int) = s.sp ∧ t.sp = s.sp - 1 ∧
      (∀ k : Nibble, (k.toNat : Int) ≤ t.sp → t.slot k = s.slot k) ∧
      (∀ r, t.reg r = s.reg r) ∧ t.pc = s.pc ∧ t.i = s.i ∧ ∀ b, t.byte b = s.byte b := by
  have hpos : 0 < s.depth.val := by
    have := mt s.sp_eq_neg_one.2 h
    omega
  have htop : (BitVec.ofNat 4 (s.depth.val - 1)).toNat = s.depth.val - 1 := by
    rw [BitVec.toNat_ofNat]; omega
  refine ⟨BitVec.ofNat 4 (s.depth.val - 1), { s with depth := ⟨s.depth.val - 1, by omega⟩ }, ?_, ?_, ?_,
    fun _ _ => rfl, fun _ => rfl, rfl, rfl, fun _ => rfl⟩
  · rw [s.slot_ofNat (by omega)]; exact pop_of_pos hpos
  · rw [htop, State.sp]; omega
  · simp only [State.sp]; omega

/-- Settles O32: `Push` and `Pop` by their checks, then the instructions that use neither. -/
theorem stackPrimitives : Obligations.StackPrimitives :=
  ⟨fun _ s => ⟨fun h => push_error.2 ⟨rfl, s.sp_eq_fifteen.1 h⟩, push_of_sp_ne _⟩,
    fun s => ⟨fun h => pop_error.2 ⟨rfl, s.sp_eq_neg_one.1 h⟩, pop_of_sp_ne⟩,
    fun _ _ _ h hcall hret =>
      have ⟨hstack, hdepth⟩ := exec_stack_depth h hcall hret
      ⟨State.sp_of_depth_eq hdepth, State.slot_of_stack_eq hstack⟩⟩

/-! ### The registers an instruction writes and reads (R23) -/

/-- A register that is not written is as it was. -/
theorem exec_reg_of_notMem {i : Instr} {s t : State} {r : Nibble} (hr : r ∉ regsWritten i) (h : exec i s = .next t) :
    t.reg r = s.reg r := by
  cases execShape i with
  | call nnn hi =>
    subst hi
    obtain ⟨u, hu, rfl⟩ := exec_call_next h
    obtain ⟨-, -, -, hv, -⟩ := push_ok hu
    exact State.reg_of_v_eq hv r
  | ret x hi =>
    subst hi
    obtain ⟨a, u, hu, rfl⟩ := exec_ret_next h
    obtain ⟨-, -, -, -, -, -, hv, -⟩ := pop_ok hu
    exact State.reg_of_v_eq hv r
  | loadI nnn hi => subst hi; cases h; rfl
  | setPc target hexec => rw [hexec] at h; cases h; rfl
  | writeBack x rf hexec _ hwrite =>
    rw [hexec] at h
    cases h
    exact s.writeBack_reg_of_notMem (hwrite s.reg ▸ hr)
  | delegate hexec => rw [hexec] at h; cases h; rfl

/-- A register that is not read has no effect but through itself. -/
theorem exec_setReg {i : Instr} {r : Nibble} (hr : r ∉ regsRead i) (s : State) (b : Byte) :
    exec i (s.setReg r b) = mapNext (fun t => if r ∈ regsWritten i then t else t.setReg r b) (exec i s) := by
  cases execShape i with
  | call nnn hi => subst hi; exact exec_call_mapRegsI (fun v => v.set r.toNat b r.isLt) id nnn s
  | ret x hi => subst hi; exact exec_ret_mapRegsI (fun v => v.set r.toNat b r.isLt) id x s
  | loadI nnn hi => subst hi; rfl
  | setPc target hexec hread hwrite =>
    rw [hexec, hexec, (hread _).setReg hr, hwrite]; rfl
  | writeBack x rf hexec hread hwrite =>
    rw [hexec, hexec, hread.setReg hr, hwrite s.reg, mapNext]
    split
    · next hmem => rw [s.writeBack_setReg_of_mem hmem]
    · next hmem => rw [s.writeBack_setReg_of_notMem hmem]
  | delegate hexec hwrite => rw [hexec, hexec, hwrite]; rfl

/-- Settles O52, both columns of R23 by the instruction's shape. -/
theorem registersReadAndWritten : Obligations.RegistersReadAndWritten := fun _ s _ =>
  ⟨fun hr _ h => exec_reg_of_notMem hr h, fun hr b => exec_setReg hr s b⟩

/-! ### I: who writes it, and that no instruction reads it (R32, R33) -/

/-- An instruction leaves I as it was, or is LOAD-I of what I then holds. -/
theorem exec_i {i : Instr} {s t : State} (h : exec i s = .next t) : t.i = s.i ∨ i = .loadI t.i := by
  obtain ⟨a, rfl⟩ | ⟨op, x, ab, rfl⟩ | ⟨a, u, -, hu, rfl⟩ | ⟨x, a, u, -, hu, rfl⟩ | ⟨a, hi, rfl⟩ | ⟨-, rfl⟩ := exec_next h
  · exact .inl rfl
  · exact .inl (aluStep_i ..)
  · obtain ⟨-, -, -, -, -, hi, -⟩ := push_ok hu; exact .inl hi
  · obtain ⟨-, -, -, -, -, -, -, -, hi, -⟩ := pop_ok hu; exact .inl hi
  · exact .inr hi
  · exact .inl rfl

/-- Settles O54, operation by operation. -/
theorem onlyResetAndLoadIChangeI : Obligations.OnlyResetAndLoadIChangeI := by
  intro p s t q r h
  obtain ⟨hq, -⟩ | ⟨_, -, hl, -⟩ | ⟨_, _, -, -, rfl, -⟩ | ⟨hq, hstep, -⟩ | ⟨_, -, -, rfl, -⟩ := transact_ok h
  · exact .inr (.inl hq)
  · obtain ⟨m, rfl⟩ := load_ok hl; exact .inl rfl
  · exact .inl rfl
  · obtain ⟨w, hw, -, hexec⟩ := stepWith_next hstep
    rcases exec_i hexec with hi | hi
    · exact .inl hi
    · exact .inr (.inr ⟨hq, w, hw, hi⟩)
  · exact .inl rfl

/-- Another value in I passes through every instruction but LOAD-I. -/
theorem exec_setI {i : Instr} (hi : ∀ nnn, i ≠ .loadI nnn) (s : State) (a : Addr) :
    exec i (s.setI a) = mapNext (fun t => t.setI a) (exec i s) := by
  cases execShape i with
  | call nnn hi => subst hi; exact exec_call_mapRegsI id (fun _ => a) nnn s
  | ret x hi => subst hi; exact exec_ret_mapRegsI id (fun _ => a) x s
  | loadI nnn h => exact absurd h (hi nnn)
  | setPc target hexec => rw [hexec, hexec]; rfl
  | writeBack x rf hexec => rw [hexec, hexec]; exact congrArg _ (s.writeBack_setI a x _)
  | delegate hexec => rw [hexec, hexec]; rfl

/-- Settles O55: no shape but LOAD-I's looks at I, and LOAD-I overwrites it. -/
theorem noInstructionReadsI : Obligations.NoInstructionReadsI :=
  ⟨fun _ s a hi => exec_setI hi s a, fun _ _ _ => rfl⟩

end Sys2Proof.Machine

/-! ## Proofs: the family of spec/20_memory.md

The decoder on an encoded word, family by family: a family's rule is met once, and each constructor's fields are those
its word was built from. Then memory across a STEP. -/

namespace Sys2Proof

/-! ### The families the decoder divides further (R65) -/

theorem decodeWord_family0 (p : Params) {w : Word} (h : fieldOp w = 0x0#4) : decodeWord p w = decodeFamily0 p w := by
  simp only [decodeWord, h]

theorem decodeWord_family5 (p : Params) {w : Word} (h : fieldOp w = 0x5#4) : decodeWord p w = decodeFamily5 p w := by
  simp only [decodeWord, h]

theorem decodeWord_family8 (p : Params) {w : Word} (h : fieldOp w = 0x8#4) : decodeWord p w = decodeFamily8 w := by
  simp only [decodeWord, h]

theorem decodeWord_family9 (p : Params) {w : Word} (h : fieldOp w = 0x9#4) : decodeWord p w = decodeFamily9 p w := by
  simp only [decodeWord, h]

theorem decodeWord_familyE (p : Params) {w : Word} (h : fieldOp w = 0xE#4) : decodeWord p w = decodeFamilyE w := by
  simp only [decodeWord, h]

theorem decodeWord_familyF (p : Params) {w : Word} (h : fieldOp w = 0xF#4) : decodeWord p w = decodeFamilyF w := by
  simp [decodeWord, h]

/-! ### Their rules: the options of R7, and the catch-alls of the table -/

/-- A word `0XEE` is RETURN where X is 0, and where `ZERO_FAMILY_LOW_BYTE_DECODE` looks at the low byte alone (D6). -/
theorem decodeFamily0_wordRI_ret {p : Params} {x : Nibble} (h : x = 0x0#4 ∨ p.zeroFamilyLowByteDecode = true) :
    decodeFamily0 p (wordRI 0x0#4 x 0xEE#8) = .ret x := by
  rcases h with rfl | hopt
  · rfl
  · simp [decodeFamily0, hopt]

theorem wordA_ne_of_fieldNNN_ne (op : Nibble) {nnn : Addr} {w : Word} (h : nnn ≠ fieldNNN w) : wordA op nnn ≠ w := by
  rintro rfl
  exact h (fieldNNN_wordA op nnn).symm

/-- The words of family 0 that no other row takes (R68). -/
theorem decodeFamily0_wordA_unrecognized {p : Params} {nnn : Addr} (hnop : nnn ≠ 0x000#12) (hclear : nnn ≠ 0x0E0#12)
    (hret : nnn ≠ 0x0EE#12) (hopt : ¬(p.zeroFamilyLowByteDecode = true ∧ nnn.setWidth 8 = 0xEE#8)) :
    decodeFamily0 p (wordA 0x0#4 nnn) = .unrecognized0NNN nnn := by
  have hretWord : wordA 0x0#4 nnn ≠ 0x00EE#16 := wordA_ne_of_fieldNNN_ne _ hret
  have hclearWord : wordA 0x0#4 nnn ≠ 0x00E0#16 := wordA_ne_of_fieldNNN_ne _ hclear
  have hnopWord : wordA 0x0#4 nnn ≠ 0x0000#16 := wordA_ne_of_fieldNNN_ne _ hnop
  simp only [decodeFamily0, fieldNN_wordA, fieldNNN_wordA, hretWord, hopt, hclearWord, hnopWord, if_false]

theorem decodeFamily5_skip {p : Params} {w : Word} (h : fieldN w = 0x0#4 ∨ p.strictSkipRegDecode = false) :
    decodeFamily5 p w = .skipIfRegEq (fieldX w) (fieldY w) (fieldN w) := if_pos h

theorem decodeFamily5_unrecognized {p : Params} {w : Word} (h : fieldN w ≠ 0x0#4 ∧ p.strictSkipRegDecode = true) :
    decodeFamily5 p w = .unrecognized5XYN (fieldX w) (fieldY w) (fieldN w) := if_neg (by simpa using h)

theorem decodeFamily9_skip {p : Params} {w : Word} (h : fieldN w = 0x0#4 ∨ p.strictSkipRegDecode = false) :
    decodeFamily9 p w = .skipIfRegNeq (fieldX w) (fieldY w) (fieldN w) := if_pos h

theorem decodeFamily9_unrecognized {p : Params} {w : Word} (h : fieldN w ≠ 0x0#4 ∧ p.strictSkipRegDecode = true) :
    decodeFamily9 p w = .unrecognized9XYN (fieldX w) (fieldY w) (fieldN w) := if_neg (by simpa using h)

theorem decodeFamilyE_other {w : Word} (h : fieldNN w ∉ namedLowBytesE) :
    decodeFamilyE w = .delegatedEOther (fieldX w) (fieldNN w) := by
  unfold decodeFamilyE
  split
  case h_3 => rfl
  all_goals next heq => exact absurd (heq ▸ h) (by decide)

theorem decodeFamilyF_other {w : Word} (h : fieldNN w ∉ namedLowBytesF) :
    decodeFamilyF w = .delegatedFOther (fieldX w) (fieldNN w) := by
  unfold decodeFamilyF
  split
  case h_10 => rfl
  all_goals next heq => exact absurd (heq ▸ h) (by decide)

/-! ### The decoder reads an instruction from its word -/

/-- One case for each row of the table: a family decided by its number alone, or by a named nibble or low byte, has no
condition; the rest is where well-formedness says that no earlier row takes the word. -/
theorem decodeWord_encode {p : Params} {i : Instr} (h : i.wellFormed p = true) : decodeWord p (encode i) = i := by
  cases i with
  | ret x =>
    refine (decodeWord_family0 p (fieldOp_wordRI ..)).trans (decodeFamily0_wordRI_ret ?_)
    simpa [Instr.wellFormed] using h
  | clear | nop0 => exact (decodeWord_family0 p rfl).trans (by simp [decodeFamily0, encode, fieldNN])
  | unrecognized0NNN nnn =>
    simp only [Instr.wellFormed, Bool.and_eq_true, bne_iff_ne, Bool.not_eq_true', ← Bool.not_eq_true, beq_iff_eq] at h
    obtain ⟨⟨⟨hnop, hclear⟩, hret⟩, hopt⟩ := h
    exact (decodeWord_family0 p (fieldOp_wordA ..)).trans (decodeFamily0_wordA_unrecognized hnop hclear hret hopt)
  | skipIfRegEq x y n =>
    refine (decodeWord_family5 p (fieldOp_wordRR ..)).trans ((decodeFamily5_skip ?_).trans (by simp))
    simpa [Instr.wellFormed] using h
  | unrecognized5XYN x y n =>
    refine (decodeWord_family5 p (fieldOp_wordRR ..)).trans ((decodeFamily5_unrecognized ?_).trans (by simp))
    simpa [Instr.wellFormed] using h
  | skipIfRegNeq x y n =>
    refine (decodeWord_family9 p (fieldOp_wordRR ..)).trans ((decodeFamily9_skip ?_).trans (by simp))
    simpa [Instr.wellFormed] using h
  | unrecognized9XYN x y n =>
    refine (decodeWord_family9 p (fieldOp_wordRR ..)).trans ((decodeFamily9_unrecognized ?_).trans (by simp))
    simpa [Instr.wellFormed] using h
  | delegatedEOther x nn =>
    refine (decodeWord_familyE p (fieldOp_wordRI ..)).trans ((decodeFamilyE_other ?_).trans (by simp))
    simpa [Instr.wellFormed] using h
  | delegatedFOther x nn =>
    refine (decodeWord_familyF p (fieldOp_wordRI ..)).trans ((decodeFamilyF_other ?_).trans (by simp))
    simpa [Instr.wellFormed] using h
  | copy _ _ | or _ _ | and _ _ | xor _ _ | add _ _ | sub _ _ | shr _ _ | subn _ _ | shl _ _ | unrecognized8XY9 _ _
  | unrecognized8XYA _ _ | unrecognized8XYB _ _ | unrecognized8XYC _ _ | unrecognized8XYD _ _ | unrecognized8XYE _ _
  | unrecognized8XYF _ _ => exact (decodeWord_family8 p (fieldOp_wordRR ..)).trans (by simp [decodeFamily8])
  | keySkipPressed _ | keySkipNotPressed _ =>
    exact (decodeWord_familyE p (fieldOp_wordRI ..)).trans (by simp [decodeFamilyE])
  | timerReadDelay _ | waitKey _ | timerSetDelay _ | timerSetSound _ | delegatedFX1E _ | delegatedFX29 _
  | delegatedFX33 _ | delegatedFX55 _ | delegatedFX65 _ =>
    exact (decodeWord_familyF p (fieldOp_wordRI ..)).trans (by simp [decodeFamilyF])
  | jump _ | call _ | loadI _ | jumpOffset _ | skipIfEq _ _ | skipIfNeq _ _ | loadImm _ _ | addImm _ _
  | drawRandom _ _ | drawSprite _ _ _ => simp [encode, decodeWord]

end Sys2Proof

namespace Sys2Proof.Machine

/-- Settles O3: the word by `decodeWord_encode`, its two bytes because they join to the word (R42). -/
theorem decodeOfEncodeIsTheInstruction : Obligations.DecodeOfEncodeIsTheInstruction := by
  intro p i rest h
  have hword := decodeWord_encode h
  exact ⟨hword, by rw [encodeBytes, decodeBytes_bytesOfWord, hword]⟩

/-! ### Memory across a STEP (R46, R55, R128) -/

theorem stepWith_mem {p : Params} {s t : State} (h : stepWith p s = .next t) : t.mem = s.mem := by
  obtain ⟨w, -, -, hexec⟩ := stepWith_next h
  exact (exec_mem hexec).trans s.clearNotice_mem

/-- Settles O53: memory as a whole is as it was. -/
theorem noStepWritesMemory : Obligations.NoStepWritesMemory := fun _ _ _ h a =>
  congrArg (Memory.read · a) (stepWith_mem h)

end Sys2Proof.Machine

/-! ## Proofs: the family of spec/30_encoding.md

The fields first; then what each family's decoder reads back from a word, which makes every word the word of a
well-formed instruction. The opcode table is then read on the words of instructions, the classes of words on the
decoder's families. -/

namespace Sys2Proof

/-! ### A word from the fields a rule of the decoder has fixed -/

theorem wordA_of_fields {op : Nibble} {w : Word} (hop : fieldOp w = op) : wordA op (fieldNNN w) = w := by
  rw [← hop, wordA_fields]

theorem wordRI_of_fields {op : Nibble} {nn : Byte} {w : Word} (hop : fieldOp w = op) (hnn : fieldNN w = nn) :
    wordRI op (fieldX w) nn = w := by rw [← hop, ← hnn, wordRI_fields]

theorem wordRR_of_fields {op n : Nibble} {w : Word} (hop : fieldOp w = op) (hn : fieldN w = n) :
    wordRR op (fieldX w) (fieldY w) n = w := by rw [← hop, ← hn, wordRR_fields]

/-- The last arm of a match on a nibble. -/
theorem eq_F_of_notMem : ∀ n : Nibble, n ∉ [0x0#4, 0x1#4, 0x2#4, 0x3#4, 0x4#4, 0x5#4, 0x6#4, 0x7#4, 0x8#4, 0x9#4, 0xA#4,
    0xB#4, 0xC#4, 0xD#4, 0xE#4] → n = 0xF#4 := by decide

/-! ### The decoder reads an instruction whose word it is -/

/-- `i` is well formed under `p` and has `w` for its word. -/
structure ReadsBack (p : Params) (w : Word) (i : Instr) : Prop where
  wellFormed : i.wellFormed p = true
  encode : encode i = w

/-- There is one such instruction, and the decoder reads it. -/
theorem ReadsBack.decodeWord_eq {p : Params} {w : Word} {i : Instr} (h : ReadsBack p w i) : decodeWord p w = i := by
  rw [← h.encode, decodeWord_encode h.wellFormed]

/-- A word of the row UNRECOGNIZED-0NNN is one that no row before it takes, under either option (R68, D6). -/
theorem wellFormed_unrecognized0NNN {p : Params} {nnn : Addr} :
    (Instr.unrecognized0NNN nnn).wellFormed p = true ↔ nnn ≠ 0x000#12 ∧ nnn ≠ 0x0E0#12 ∧ nnn ≠ 0x0EE#12 ∧
      ¬(p.zeroFamilyLowByteDecode = true ∧ nnn.setWidth 8 = 0xEE#8) := by
  simp only [Instr.wellFormed, Bool.and_eq_true, bne_iff_ne, Bool.not_eq_true', ← Bool.not_eq_true, beq_iff_eq, and_assoc]

/-- `0XEE` under the option that looks at the low byte alone (D6). -/
theorem readsBack_ret {p : Params} {w : Word} (hopt : p.zeroFamilyLowByteDecode = true) (hop : fieldOp w = 0x0#4)
    (hnn : fieldNN w = 0xEE#8) : ReadsBack p w (.ret (fieldX w)) :=
  ⟨by simp [Instr.wellFormed, hopt], wordRI_of_fields hop hnn⟩

theorem readsBack_decodeFamily0 {p : Params} {w : Word} (hop : fieldOp w = 0x0#4) :
    ReadsBack p w (decodeFamily0 p w) := by
  unfold decodeFamily0
  split_ifs with hret hopt hclear hnop
  · subst hret; exact ⟨rfl, rfl⟩
  · exact readsBack_ret hopt.1 hop hopt.2
  · exact ⟨rfl, hclear.symm⟩
  · exact ⟨rfl, hnop.symm⟩
  · obtain ⟨nnn, rfl⟩ : ∃ nnn, wordA 0x0#4 nnn = w := ⟨_, wordA_of_fields hop⟩
    have hret' : nnn ≠ 0x0EE#12 := fun e => hret (e ▸ rfl)
    have hclear' : nnn ≠ 0x0E0#12 := fun e => hclear (e ▸ rfl)
    have hnop' : nnn ≠ 0x000#12 := fun e => hnop (e ▸ rfl)
    rw [fieldNN_wordA] at hopt
    rw [fieldNNN_wordA]
    exact ⟨wellFormed_unrecognized0NNN.mpr ⟨hnop', hclear', hret', hopt⟩, rfl⟩

theorem readsBack_decodeFamily5 {p : Params} {w : Word} (hop : fieldOp w = 0x5#4) :
    ReadsBack p w (decodeFamily5 p w) := by
  unfold decodeFamily5
  split_ifs with h
  all_goals exact ⟨by simpa [Instr.wellFormed] using h, wordRR_of_fields hop rfl⟩

theorem readsBack_decodeFamily8 {p : Params} {w : Word} (hop : fieldOp w = 0x8#4) :
    ReadsBack p w (decodeFamily8 w) := by
  unfold decodeFamily8
  split
  case h_16 => exact ⟨rfl, wordRR_of_fields hop (eq_F_of_notMem _ (by simp_all))⟩
  all_goals exact ⟨rfl, wordRR_of_fields hop ‹_›⟩

theorem readsBack_decodeFamily9 {p : Params} {w : Word} (hop : fieldOp w = 0x9#4) :
    ReadsBack p w (decodeFamily9 p w) := by
  unfold decodeFamily9
  split_ifs with h
  all_goals exact ⟨by simpa [Instr.wellFormed] using h, wordRR_of_fields hop rfl⟩

theorem readsBack_decodeFamilyE {p : Params} {w : Word} (hop : fieldOp w = 0xE#4) :
    ReadsBack p w (decodeFamilyE w) := by
  unfold decodeFamilyE
  split
  case h_3 => exact ⟨by simp_all [Instr.wellFormed, namedLowBytesE], wordRI_of_fields hop rfl⟩
  all_goals exact ⟨rfl, wordRI_of_fields hop ‹_›⟩

theorem readsBack_decodeFamilyF {p : Params} {w : Word} (hop : fieldOp w = 0xF#4) :
    ReadsBack p w (decodeFamilyF w) := by
  unfold decodeFamilyF
  split
  case h_10 => exact ⟨by simp_all [Instr.wellFormed, namedLowBytesF], wordRI_of_fields hop rfl⟩
  all_goals exact ⟨rfl, wordRI_of_fields hop ‹_›⟩

/-- One case for each family: the arms below the families that are divided further keep every bit of their word. -/
theorem readsBack_decodeWord (p : Params) (w : Word) : ReadsBack p w (decodeWord p w) := by
  unfold decodeWord
  split
  case h_1 => exact readsBack_decodeFamily0 ‹_›
  case h_6 => exact readsBack_decodeFamily5 ‹_›
  case h_9 => exact readsBack_decodeFamily8 ‹_›
  case h_10 => exact readsBack_decodeFamily9 ‹_›
  case h_15 => exact readsBack_decodeFamilyE ‹_›
  case h_16 => exact readsBack_decodeFamilyF (eq_F_of_notMem _ (by simp_all))
  case h_2 | h_3 | h_11 | h_12 => exact ⟨rfl, wordA_of_fields ‹_›⟩
  case h_4 | h_5 | h_7 | h_8 | h_13 => exact ⟨rfl, wordRI_of_fields ‹_› rfl⟩
  case h_14 => exact ⟨rfl, wordRR_of_fields ‹_› rfl⟩

/-! ### The opcode table by families -/

open Laws.TableRow (wordA_family wordRI_family wordRI_familyByte wordRR_familyNibble)

/-- The rows whose words are of one family, in the table's order. -/
def rowsOfFamily (op : Nibble) : List OpcodeRow := opcodeRows.filter fun r => fieldOp r.pattern == op

theorem fieldOp_mask : ∀ r ∈ opcodeRows, fieldOp r.mask = 0xF#4 := by decide

/-- A row takes words of its own family only, because every mask keeps the family. -/
theorem fieldOp_pattern_of_match {r : OpcodeRow} {w : Word} (hr : r ∈ opcodeRows) (h : w &&& r.mask = r.pattern) :
    fieldOp r.pattern = fieldOp w := by
  have hand : fieldOp (w &&& r.mask) = fieldOp w &&& fieldOp r.mask := BitVec.extractLsb'_and
  rw [← h, hand, fieldOp_mask r hr]
  exact BitVec.and_allOnes

theorem firstRow_eq_find?_rowsOfFamily (w : Word) :
    firstRow w = (rowsOfFamily (fieldOp w)).find? fun r => w &&& r.mask == r.pattern := by
  rw [rowsOfFamily, List.find?_filter]
  refine List.find?_congr fun r hr => ?_
  rw [Bool.eq_iff_iff]
  simpa using fieldOp_pattern_of_match hr

/-- Two words of a family that agree under the masks of its rows have the same first row. -/
theorem firstRow_congr {op : Nibble} {w v : Word} (hw : fieldOp w = op) (hv : fieldOp v = op)
    (h : ∀ r ∈ rowsOfFamily op, w &&& r.mask = v &&& r.mask) : firstRow w = firstRow v := by
  rw [firstRow_eq_find?_rowsOfFamily, firstRow_eq_find?_rowsOfFamily, hw, hv]
  exact List.find?_congr fun r hr => by rw [h r hr]

/-! ### The first row does not depend on the operands that its family's masks drop -/

theorem firstRow_of_familyMask {op : Nibble} {w : Word} (hop : fieldOp w = op)
    (hmask : ∀ r ∈ rowsOfFamily op, r.mask = 0xF000#16) : firstRow w = firstRow (wordA op 0x000#12) := by
  refine firstRow_congr hop (fieldOp_wordA ..) fun r hr => ?_
  rw [hmask r hr, ← wordA_of_fields hop, wordA_family, wordA_family]

theorem firstRow_of_nibbleMask {op : Nibble} (hmask : ∀ r ∈ rowsOfFamily op, r.mask = 0xF00F#16) (x y n : Nibble) :
    firstRow (wordRR op x y n) = firstRow (wordRR op 0x0#4 0x0#4 n) := by
  refine firstRow_congr (fieldOp_wordRR ..) (fieldOp_wordRR ..) fun r hr => ?_
  rw [hmask r hr, wordRR_familyNibble, wordRR_familyNibble]

theorem firstRow_of_byteMask {op : Nibble} (hmask : ∀ r ∈ rowsOfFamily op, r.mask = 0xF000#16 ∨ r.mask = 0xF0FF#16)
    (x : Nibble) (nn : Byte) : firstRow (wordRI op x nn) = firstRow (wordRI op 0x0#4 nn) := by
  refine firstRow_congr (fieldOp_wordRI ..) (fieldOp_wordRI ..) fun r hr => ?_
  obtain hm | hm := hmask r hr
  · rw [hm, wordRI_family, wordRI_family]
  · rw [hm, wordRI_familyByte, wordRI_familyByte]

/-! ### The catch-alls: no row before them takes the word -/

/-- Where the other rows of a family name low bytes, a word of no named byte goes to the family's catch-all. -/
theorem firstRow_of_notMem_named {op : Nibble} {named : List Byte}
    (hrows : ∀ r ∈ rowsOfFamily op, r.mask = 0xF000#16 ∧ r.pattern = wordA op 0x000#12 ∨
      r.mask = 0xF0FF#16 ∧ fieldNN r.pattern ∈ named) (x : Nibble) {nn : Byte} (hnn : nn ∉ named) :
    firstRow (wordRI op x nn) = (rowsOfFamily op).find? fun r => r.mask == 0xF000#16 := by
  rw [firstRow_eq_find?_rowsOfFamily, fieldOp_wordRI]
  refine List.find?_congr fun r hr => ?_
  obtain ⟨hm, hp⟩ | ⟨hm, hp⟩ := hrows r hr
  · rw [hm, hp, wordRI_family, beq_self_eq_true, beq_self_eq_true]
  · have hne : wordRI op 0x0#4 nn ≠ r.pattern := fun e => hnn (by rwa [← e, fieldNN_wordRI] at hp)
    rw [hm, wordRI_familyByte, beq_eq_false_iff_ne.mpr hne]
    rfl

theorem firstRow_unrecognized0NNN {nnn : Addr} (hnop : nnn ≠ 0x000#12) (hclear : nnn ≠ 0x0E0#12)
    (hret : nnn ≠ 0x0EE#12) : firstRow (wordA 0x0#4 nnn) = some ⟨"UNRECOGNIZED-0NNN", 0x0000#16, 0xF000#16⟩ := by
  have hretWord : wordA 0x0#4 nnn ≠ 0x00EE#16 := wordA_ne_of_fieldNNN_ne _ hret
  have hclearWord : wordA 0x0#4 nnn ≠ 0x00E0#16 := wordA_ne_of_fieldNNN_ne _ hclear
  have hnopWord : wordA 0x0#4 nnn ≠ 0x0000#16 := wordA_ne_of_fieldNNN_ne _ hnop
  have hexact : wordA 0x0#4 nnn &&& 0xFFFF#16 = wordA 0x0#4 nnn := BitVec.and_allOnes
  have hfamily : wordA 0x0#4 nnn &&& 0xF000#16 = 0x0000#16 := wordA_family ..
  have hrows : rowsOfFamily 0x0#4 = rowsOfFamilies0To7.take 4 := by decide
  rw [firstRow_eq_find?_rowsOfFamily, fieldOp_wordA, hrows]
  simp [rowsOfFamilies0To7, hexact, hfamily, hretWord, hclearWord, hnopWord]

/-- The first row that takes the word of an instruction is the instruction's own. Where the operands do not matter, the
row is that of the same word with its operands 0, which the table gives by evaluation. -/
theorem firstRow_encode {i : Instr} (h : i.wellFormed Params.reference = true) :
    (firstRow (encode i)).map (·.mnemonic) = some i.mnemonic := by
  cases i with
  | ret x =>
    have hx : x = 0x0#4 := by simpa [Instr.wellFormed, Params.reference] using h
    subst hx; rfl
  | clear | nop0 => rfl
  | unrecognized0NNN nnn =>
    obtain ⟨hnop, hclear, hret, -⟩ := wellFormed_unrecognized0NNN.mp h
    exact congrArg (Option.map _) (firstRow_unrecognized0NNN hnop hclear hret)
  | jump _ | call _ | loadI _ | jumpOffset _ =>
    rw [encode, firstRow_of_familyMask (fieldOp_wordA ..) (by decide)]; rfl
  | skipIfEq _ _ | skipIfNeq _ _ | loadImm _ _ | addImm _ _ | drawRandom _ _ =>
    rw [encode, firstRow_of_familyMask (fieldOp_wordRI ..) (by decide)]; rfl
  | skipIfRegEq _ _ _ | skipIfRegNeq _ _ _ | drawSprite _ _ _ | unrecognized5XYN _ _ _ | unrecognized9XYN _ _ _ =>
    rw [encode, firstRow_of_familyMask (fieldOp_wordRR ..) (by decide)]; rfl
  | copy _ _ | or _ _ | and _ _ | xor _ _ | add _ _ | sub _ _ | shr _ _ | subn _ _ | shl _ _ | unrecognized8XY9 _ _
  | unrecognized8XYA _ _ | unrecognized8XYB _ _ | unrecognized8XYC _ _ | unrecognized8XYD _ _ | unrecognized8XYE _ _
  | unrecognized8XYF _ _ => rw [encode, firstRow_of_nibbleMask (by decide)]; rfl
  | keySkipPressed _ | keySkipNotPressed _ | timerReadDelay _ | waitKey _ | timerSetDelay _ | timerSetSound _
  | delegatedFX1E _ | delegatedFX29 _ | delegatedFX33 _ | delegatedFX55 _ | delegatedFX65 _ =>
    rw [encode, firstRow_of_byteMask (by decide)]; rfl
  | delegatedEOther x nn =>
    have hnn : nn ∉ namedLowBytesE := by simpa [Instr.wellFormed] using h
    rw [encode, firstRow_of_notMem_named (by decide) x hnn]; rfl
  | delegatedFOther x nn =>
    have hnn : nn ∉ namedLowBytesF := by simpa [Instr.wellFormed] using h
    rw [encode, firstRow_of_notMem_named (by decide) x hnn]; rfl

/-! ### The class of a word, family by family (R71, R73) -/

theorem isUnrecognized_decodeFamily0 (p : Params) (w : Word) : (decodeFamily0 p w).isUnrecognized = true ↔
    w ≠ 0x0000#16 ∧ w ≠ 0x00E0#16 ∧ w ≠ 0x00EE#16 ∧ ¬(p.zeroFamilyLowByteDecode = true ∧ fieldNN w = 0xEE#8) := by
  unfold decodeFamily0
  split_ifs with hret hopt hclear hnop
  · simp [Instr.isUnrecognized, hret]
  · simp [Instr.isUnrecognized, hopt]
  · simp [Instr.isUnrecognized, hclear]
  · simp [Instr.isUnrecognized, hnop]
  · exact ⟨fun _ => ⟨hnop, hclear, hret, hopt⟩, fun _ => rfl⟩

theorem isUnrecognized_decodeFamily5 (p : Params) (w : Word) : (decodeFamily5 p w).isUnrecognized = true ↔
    p.strictSkipRegDecode = true ∧ fieldN w ≠ 0x0#4 := by
  unfold decodeFamily5
  split_ifs with h
  · exact iff_of_false nofun fun ⟨hstrict, hn⟩ => h.elim hn (by simp [hstrict])
  · exact iff_of_true rfl (by simpa [and_comm] using h)

theorem isUnrecognized_decodeFamily8 (w : Word) : (decodeFamily8 w).isUnrecognized = true ↔
    0x9 ≤ (fieldN w).toNat := by
  unfold decodeFamily8
  split
  case h_16 => simp [Instr.isUnrecognized, eq_F_of_notMem (fieldN w) (by simp_all)]
  all_goals next hn => simp [Instr.isUnrecognized, hn]

theorem isUnrecognized_decodeFamily9 (p : Params) (w : Word) : (decodeFamily9 p w).isUnrecognized = true ↔
    p.strictSkipRegDecode = true ∧ fieldN w ≠ 0x0#4 := by
  unfold decodeFamily9
  split_ifs with h
  · exact iff_of_false nofun fun ⟨hstrict, hn⟩ => h.elim hn (by simp [hstrict])
  · exact iff_of_true rfl (by simpa [and_comm] using h)

theorem isDelegated_decodeFamilyE (w : Word) : (decodeFamilyE w).isDelegated = true := by
  unfold decodeFamilyE
  split <;> rfl

theorem isDelegated_decodeFamilyF (w : Word) : (decodeFamilyF w).isDelegated = true := by
  unfold decodeFamilyF
  split <;> rfl

theorem isUnrecognized_of_isDelegated {i : Instr} (h : i.isDelegated = true) : i.isUnrecognized = false := by
  cases i with
  | unrecognized0NNN _ | unrecognized8XY9 _ _ | unrecognized8XYA _ _ | unrecognized8XYB _ _ | unrecognized8XYC _ _
  | unrecognized8XYD _ _ | unrecognized8XYE _ _ | unrecognized8XYF _ _ | unrecognized5XYN _ _ _
  | unrecognized9XYN _ _ _ => cases h
  | _ => rfl

end Sys2Proof

namespace Sys2Proof.Machine

/-- Settles O4, by `readsBack_decodeWord`. -/
theorem encodeOfDecodeIsTheWord : Obligations.EncodeOfDecodeIsTheWord := fun p w =>
  have h := readsBack_decodeWord p w
  ⟨h.wellFormed, h.encode⟩

/-- Settles O5: a word is the word of the instruction decoded from it, and such a word's first row is the
instruction's. -/
theorem decoderIsTheOpcodeTable : Obligations.DecoderIsTheOpcodeTable := by
  intro w
  have h := readsBack_decodeWord Params.reference w
  have hrow := firstRow_encode h.wellFormed
  rwa [h.encode] at hrow

/-- Settles O6, family by family. -/
theorem unrecognizedWordsAreThese : Obligations.UnrecognizedWordsAreThese := by
  intro p w
  refine ⟨?_, fun hopt hop hnn => (readsBack_ret hopt hop hnn).decodeWord_eq⟩
  unfold decodeWord
  split
  case h_1 hop => simp [hop, isUnrecognized_decodeFamily0]
  case h_6 hop => simp [hop, isUnrecognized_decodeFamily5]
  case h_9 hop => simp [hop, isUnrecognized_decodeFamily8]
  case h_10 hop => simp [hop, isUnrecognized_decodeFamily9]
  case h_15 hop => simp [hop, isUnrecognized_of_isDelegated (isDelegated_decodeFamilyE w)]
  case h_16 =>
    have hop : fieldOp w = 0xF#4 := eq_F_of_notMem _ (by simp_all)
    simp [hop, isUnrecognized_of_isDelegated (isDelegated_decodeFamilyF w)]
  all_goals next hop => simp [hop, Instr.isUnrecognized]

theorem isDelegated_of_delegatedWord (p : Params) {w : Word} (h : delegatedWord w) :
    (decodeWord p w).isDelegated = true := by
  have hhigh : ∀ op : Nibble, 0xC ≤ op.toNat → op = 0xC#4 ∨ op = 0xD#4 ∨ op = 0xE#4 ∨ op = 0xF#4 := by decide
  obtain rfl | hge := h
  · exact congrArg Instr.isDelegated (decodeWord_encode (i := .clear) rfl)
  · obtain hop | hop | hop | hop := hhigh _ hge
    · simp [decodeWord, hop, Instr.isDelegated]
    · simp [decodeWord, hop, Instr.isDelegated]
    · rw [decodeWord_familyE p hop, isDelegated_decodeFamilyE]
    · rw [decodeWord_familyF p hop, isDelegated_decodeFamilyF]

/-- Settles O7: a delegated instruction's word is one a notice may name, and the word is that of what it decodes to. -/
theorem delegatedWordsAreThese : Obligations.DelegatedWordsAreThese := by
  refine fun p w => ⟨fun h => ?_, isDelegated_of_delegatedWord p⟩
  have hword := delegatedWord_encode h
  rwa [(readsBack_decodeWord p w).encode] at hword

/-! ### Unrecognized words at work (R70) -/

theorem exec_of_isUnrecognized {i : Instr} (h : i.isUnrecognized = true) (s : State) : exec i s = .next s.advance := by
  cases i with
  | unrecognized0NNN _ | unrecognized8XY9 _ _ | unrecognized8XYA _ _ | unrecognized8XYB _ _ | unrecognized8XYC _ _
  | unrecognized8XYD _ _ | unrecognized8XYE _ _ | unrecognized8XYF _ _ | unrecognized5XYN _ _ _
  | unrecognized9XYN _ _ _ => rfl
  | _ => cases h

theorem keepsAllBut_advance (regs : List Nibble) (s : State) : KeepsAllBut regs s s.advance :=
  ⟨fun _ _ => rfl, rfl, rfl, fun _ => rfl, fun _ => rfl, rfl⟩

/-- Settles O50: such an instruction is one advance of PC. -/
theorem unrecognizedWordsOnlyAdvance : Obligations.UnrecognizedWordsOnlyAdvance := fun _ s h =>
  ⟨s.advance, exec_of_isUnrecognized h s, rfl, keepsAllBut_advance [] s⟩

/-! ### Masks and samples (R61, R67) -/

/-- A mask of `j` ones at bit `k`, then the shift by `k`, as division and remainder. -/
theorem and_shiftRight_eq_div_mod (n : Nat) {m k j : Nat} (hm : m >>> k = 2 ^ j - 1) :
    (n &&& m) >>> k = n / 2 ^ k % 2 ^ j := by
  rw [Nat.shiftRight_and_distrib, hm, Nat.and_two_pow_sub_one_eq_mod, Nat.shiftRight_eq_div_pow]

/-- Settles O1: both sides are the same quotient and remainder. -/
theorem fieldsAreTheSourcesMasks : Obligations.FieldsAreTheSourcesMasks := by
  intro w
  refine ⟨?_, ?_, ?_, ?_, ?_, ?_⟩
  · have hlt : w.toNat / 2 ^ 12 < 2 ^ 4 := by omega
    rw [and_shiftRight_eq_div_mod _ (j := 4) rfl, Nat.mod_eq_of_lt hlt]
    exact fieldOp_toNat w
  · exact (fieldX_toNat w).trans (and_shiftRight_eq_div_mod _ (m := 0x0F00) (k := 8) (j := 4) rfl).symm
  · exact (fieldY_toNat w).trans (and_shiftRight_eq_div_mod _ (m := 0x00F0) (k := 4) (j := 4) rfl).symm
  · exact (fieldN_toNat w).trans (Nat.and_two_pow_sub_one_eq_mod _ 4).symm
  · exact (fieldNN_toNat w).trans (Nat.and_two_pow_sub_one_eq_mod _ 8).symm
  · exact (fieldNNN_toNat w).trans (Nat.and_two_pow_sub_one_eq_mod _ 12).symm

/-- Settles O2: sixteen closed words, by evaluation of the decoder. -/
theorem sampleWordsDecodeAsTheTableSays : Obligations.SampleWordsDecodeAsTheTableSays := by
  unfold Obligations.SampleWordsDecodeAsTheTableSays
  decide

/-! ### The assembler's forms (R74) -/

section Forms

variable {a b : List Char} {x y : Nibble} {nn : Byte} {nnn : Addr}

theorem assembleA_of_operand (op : Nibble) (ha : immediate 12 a = some nnn) :
    assembleA op a = some (wordA op nnn) := by simp [assembleA, ha]

theorem assembleRI_of_operands (op : Nibble) (ha : register a = some x) (hb : immediate 8 b = some nn) :
    assembleRI op a b = some (wordRI op x nn) := by simp [assembleRI, ha, hb]

theorem assembleRR_of_operands (op n : Nibble) (ha : register a = some x) (hb : register b = some y) :
    assembleRR op n a b = some (wordRR op x y n) := by simp [assembleRR, ha, hb]

theorem assembleR_of_operand (op n : Nibble) (ha : register a = some x) :
    assembleR op n a = some (wordRR op x 0x0#4 n) := by simp [assembleR, ha]

end Forms

/-- Settles O13: by its name a line is one of the forms, and an instruction's word is of the same form. -/
theorem assemblerTableGivesTheInstructionsWord : Obligations.AssemblerTableGivesTheInstructionsWord := by
  refine ⟨rfl, rfl, rfl, fun a nnn ha => ?_, fun a b x nn ha hb => ?_, fun a b x y ha hb => ?_, fun _ _ ha => ha⟩
  · have hA op := assembleA_of_operand op ha
    exact ⟨hA _, hA _, hA _, hA _⟩
  · have hRI op := assembleRI_of_operands op ha hb
    exact ⟨hRI _, hRI _, hRI _, hRI _, hRI _⟩
  · have hRR op n := assembleRR_of_operands op n ha hb
    have hR op n := assembleR_of_operand op n ha
    exact ⟨hRR _ _, hRR _ _, hRR _ _, hRR _ _, hRR _ _, hRR _ _, hRR _ _, hRR _ _, hRR _ _, hRR _ _, hRR _ _,
      hR _ _, hR _ _⟩

end Sys2Proof.Machine

/-! ## Proofs: the family of spec/40_sequencer.md

Fetch, and the bytes placed for it; then a STEP of a fetched word, the refusals, the notice, and failure; then what a
sequence of operations makes of each. -/

namespace Sys2Proof.Machine

/-! ### Fetch (R81) -/

theorem pc_eq_top_iff (a : Addr) : a = 0xFFF#12 ↔ a.toNat + 1 > 0xFFF := by
  rw [← BitVec.toNat_inj]
  have := a.isLt
  change a.toNat = 0xFFF ↔ _
  omega

theorem add_one_eq_ofNat (a : Addr) : a + 1 = BitVec.ofNat 12 (a.toNat + 1) :=
  BitVec.eq_of_toNat_eq (by rw [BitVec.toNat_add, BitVec.toNat_ofNat]; rfl)

/-- Settles O14: the bound is PC = 0xFFF, and the word is its two bytes joined, the high one first. -/
theorem fetchIsBigEndianAndBounded : Obligations.FetchIsBigEndianAndBounded := by
  refine fun s => ⟨fun htop => fetch_at_top ((pc_eq_top_iff _).2 htop), fun hroom => ?_⟩
  have hpc : s.pc ≠ 0xFFF#12 := fun h => absurd ((pc_eq_top_iff _).1 h) (by omega)
  refine ⟨_, fetch_of_ne hpc, ?_⟩
  rw [Memory.readWord, wordOfBytes_toNat, add_one_eq_ofNat]
  rfl

/-! ### A word placed at PC is the word fetched (R42, R81) -/

/-- Two addresses in a row hold the bytes written there as one word. -/
theorem Memory.readWord_writeBytes_bytesOfWord {m : Memory} (hm : m.wf) (a : Addr) (w : Word) :
    (m.writeBytes a (bytesOfWord w)).readWord a = w := by
  have hhigh := write_wf hm a (w.extractLsb' 8 8)
  have hne : a ≠ a + 1 := by bv_omega
  simp only [readWord, bytesOfWord, writeBytes, read_write hhigh, read_write hm, if_pos, if_neg hne, wordOfBytes_bytes]

theorem fetch_placeAtPc {s : State} (hm : s.mem.wf) (hpc : s.pc ≠ 0xFFF#12) (w : Word) :
    fetch (placeAtPc s w) = .ok w := by
  have hplaced : placeAtPc s w = { s with mem := s.mem.writeBytes s.pc (bytesOfWord w) } := if_neg hpc
  have hpc' : (placeAtPc s w).pc ≠ 0xFFF#12 := by rwa [hplaced]
  rw [fetch_of_ne hpc', hplaced]
  exact congrArg _ (Memory.readWord_writeBytes_bytesOfWord hm s.pc w)

/-- A word of all 16 bits is its number. -/
theorem tableWord_sixteen (w : Nat) : tableWord 16 w = BitVec.ofNat 16 w :=
  BitVec.eq_of_toNat_eq (by rw [tableWord, BitVec.toNat_ofNat, BitVec.toNat_ofNat, Nat.mod_mod])

/-! ### A STEP of a fetched word (R84) -/

theorem refuses_iff (p : Params) (i : Instr) :
    refuses p i = true ↔ p.delegatedMode = .refuse ∧ i.isDelegated = true := by simp [refuses]

/-- The host's step of a fetched word runs its instruction: under the reference parameters nothing is refused. -/
theorem step_of_fetch_ok {s : State} {w : Word} (h : fetch s = .ok w) :
    step s = exec (decodeWord Params.reference w) s.clearNotice := by
  simp [step, stepWith_of_fetch_ok h]

/-- Settles O15: by the laws of a STEP; the two bytes at PC are the word the fetch reads. -/
theorem stepRunsTheDecodedInstruction : Obligations.StepRunsTheDecodedInstruction := by
  refine ⟨fun p s e h => stepWith_of_fetch_error h, fun p s w h => ?_, fun s i hpc hbytes => ?_⟩
  · simp only [stepWith_of_fetch_ok h, refuses_iff]
  · cases hbytes
    exact step_of_fetch_ok (fetch_of_ne hpc)

/-- Settles O16: the next fetch reads the placed word. -/
theorem placedInstructionRunsNext : Obligations.PlacedInstructionRunsNext := by
  intro s w hm hpc _
  rw [← tableWord_sixteen w]
  exact step_of_fetch_ok (fetch_placeAtPc hm hpc (tableWord 16 w))

/-! ### Refusals (R92) -/

/-- Settles O20: the sequencer refuses what decodes to a delegated instruction, and that is a delegated word. -/
theorem onlyDelegatedWordsAreRefused : Obligations.OnlyDelegatedWordsAreRefused := by
  refine ⟨fun p s r => ⟨fun h => ?_, ?_⟩, fun s r h => ?_⟩
  · obtain ⟨w, hfetch, hrefuses, hr⟩ := stepWith_refused h
    obtain ⟨hmode, hdelegated⟩ := (refuses_iff p _).1 hrefuses
    exact ⟨hmode, w, hfetch, (delegatedWordsAreThese p w).1 hdelegated, hr⟩
  · rintro ⟨hmode, w, hfetch, hword, rfl⟩
    have hrefuses := (refuses_iff p _).2 ⟨hmode, isDelegated_of_delegatedWord p hword⟩
    rw [stepWith_of_fetch_ok hfetch, if_pos hrefuses]
  · obtain ⟨w, -, hrefuses, -⟩ := stepWith_refused h
    cases (refuses_reference _).symm.trans hrefuses

/-! ### The notice (R91; log 7) -/

theorem exec_of_isDelegated {i : Instr} (h : i.isDelegated = true) (s : State) :
    exec i s = .next (s.delegate (encode i)) := by
  cases i with
  | clear | drawRandom _ _ | drawSprite _ _ _ | keySkipPressed _ | keySkipNotPressed _ | delegatedEOther _ _
  | timerReadDelay _ | waitKey _ | timerSetDelay _ | timerSetSound _ | delegatedFX1E _ | delegatedFX29 _
  | delegatedFX33 _ | delegatedFX55 _ | delegatedFX65 _ | delegatedFOther _ _ => rfl
  | _ => cases h

theorem stepWith_clearNotice (p : Params) (s : State) : stepWith p s.clearNotice = stepWith p s := rfl

theorem stepWith_raiseNotice (p : Params) (s : State) (w : Word) : stepWith p (s.raiseNotice w) = stepWith p s := rfl

/-- Settles O22: a delegated instruction leaves the word it was decoded from, and no other touches the notice, which
the STEP has dropped before. -/
theorem noticeNamesTheDelegatedWord : Obligations.NoticeNamesTheDelegatedWord := by
  refine ⟨fun p s t w hfetch hstep => ?_, fun p s w => ⟨stepWith_raiseNotice p s w, stepWith_clearNotice p s⟩⟩
  obtain ⟨w', hfetch', -, hexec⟩ := stepWith_next hstep
  obtain rfl : w = w' := Except.ok.inj (hfetch.symm.trans hfetch')
  refine ⟨fun hword => ?_, fun hword => ?_⟩
  · rw [exec_of_isDelegated (isDelegated_of_delegatedWord p hword)] at hexec
    cases hexec
    rw [State.delegate_notice, (readsBack_decodeWord p w).encode]
  · obtain hold | ⟨hdelegated, -⟩ := exec_notice hexec
    · exact hold
    · exact absurd ((delegatedWordsAreThese p w).1 hdelegated) hword

/-! ### The STEP as a transaction (R77, R78) -/

theorem transact_step_of_next {p : Params} {s t : State} (h : stepWith p s = .next t) :
    transact p s .step = .ok (t, .ok) := by simp [transact, h]

theorem transact_step_of_fault {p : Params} {s : State} {e : Fault} (h : stepWith p s = .fault e) :
    transact p s .step = .ok (s.clearNotice, .ofFault e) := by simp [transact, h]

/-- A STEP with a result other than OK is one that ends in an error (R131), and drops the notice alone (R133). -/
theorem transact_step_failed {p : Params} {s t : State} {r : Result} (h : transact p s .step = .ok (t, r))
    (hr : r ≠ .ok) : ∃ e, stepWith p s = .fault e ∧ t = s.clearNotice ∧ r = .ofFault e := by
  obtain ⟨hq, -⟩ | ⟨_, hq, -⟩ | ⟨_, _, hq, -⟩ | ⟨-, -, hok⟩ | ⟨e, -, hfault, ht, hr⟩ := transact_ok h
  · cases hq
  · cases hq
  · cases hq
  · exact absurd hok hr
  · exact ⟨e, hfault, ht, hr⟩

/-- LOAD leaves the notice as it was, rejected or not (log 7). -/
theorem transact_load_notice {p : Params} {s t : State} {bytes : List Byte} {r : Result}
    (h : transact p s (.load bytes) = .ok (t, r)) : t.notice = s.notice := by
  obtain ⟨hq, -⟩ | ⟨_, -, hload, -⟩ | ⟨_, _, -, -, rfl, -⟩ | ⟨hq, -⟩ | ⟨_, hq, -⟩ := transact_ok h
  · cases hq
  · obtain ⟨m, rfl⟩ := load_ok hload; rfl
  · rfl
  · cases hq
  · cases hq

/-- Settles O10: operation by operation. -/
theorem noticeAcrossOperations : Obligations.NoticeAcrossOperations := by
  refine fun p s t r => ⟨fun h => ?_, fun bytes h => transact_load_notice h, fun h hr => ?_⟩
  · cases h; rfl
  · obtain ⟨e, -, rfl, -⟩ := transact_step_failed h hr; rfl

/-- Settles O19: the failed STEP leaves the state but for the notice, which the next STEP does not read. -/
theorem failedStepFailsAgain : Obligations.FailedStepFailsAgain := by
  intro p s t r h hr
  obtain ⟨e, hfault, rfl, rfl⟩ := transact_step_failed h hr
  exact transact_step_of_fault ((stepWith_clearNotice p s).trans hfault)

/-- Settles O11: the table of R78, evaluated. -/
theorem resultCodes : Obligations.ResultCodes := ⟨rfl, rfl, rfl, rfl⟩

/-! ### Runs that reach a refusal (R92, R157) -/

/-- A run goes on from the state its first part leads to. -/
theorem runRequests_append {p : Params} {s t : State} {before : List Request} {results : List Result}
    (h : runRequests p s before = .ok (t, results)) (qs : List Request) :
    runRequests p s (before ++ qs) = (runRequests p t qs).map fun u => (u.1, results ++ u.2) := by
  induction before generalizing s results with
  | nil =>
    cases h
    rw [List.nil_append]
    cases runRequests p t qs <;> rfl
  | cons q before ih =>
    cases hq : transact p s q with
    | error r => rw [runRequests_cons_error hq] at h; cases h
    | ok u =>
      rw [runRequests_cons_ok hq] at h
      rw [List.cons_append, runRequests_cons_ok hq]
      cases hrun : runRequests p u.1 before with
      | error r => rw [hrun] at h; cases h
      | ok v =>
        rw [hrun] at h
        cases h
        rw [ih hrun]
        cases runRequests p v.1 qs <;> rfl

/-- A refused run has a first STEP that is refused, and a run of the operations before it. -/
theorem runRequests_error {p : Params} {s : State} {qs : List Request} {r : Refusal}
    (h : runRequests p s qs = .error r) :
    ∃ before after t results, qs = before ++ .step :: after ∧ runRequests p s before = .ok (t, results) ∧
      stepWith p t = .refused r := by
  induction qs generalizing s with
  | nil => cases h
  | cons q qs ih =>
    cases hq : transact p s q with
    | error r' =>
      rw [runRequests_cons_error hq] at h
      cases h
      obtain ⟨rfl, hrefused⟩ := transact_error.1 hq
      exact ⟨[], qs, s, [], rfl, rfl, hrefused⟩
    | ok u =>
      rw [runRequests_cons_ok hq] at h
      cases hrun : runRequests p u.1 qs with
      | ok v => rw [hrun] at h; cases h
      | error r' =>
        rw [hrun] at h
        cases h
        obtain ⟨before, after, t, results, rfl, hbefore, hrefused⟩ := ih hrun
        refine ⟨q :: before, after, t, u.2 :: results, rfl, ?_, hrefused⟩
        rw [runRequests_cons_ok hq, hbefore]
        rfl

/-- Settles O21: one operation by `transact_error`, a run by induction over its operations. -/
theorem refusedRunHasNoFinalState : Obligations.RefusedRunHasNoFinalState := by
  refine ⟨fun p s q r => transact_error, fun p s qs r => ⟨runRequests_error, ?_⟩⟩
  rintro ⟨before, after, t, results, rfl, hbefore, hrefused⟩
  have hstep := transact_error.2 ⟨rfl, hrefused⟩
  rw [runRequests_append hbefore, runRequests_cons_error hstep]
  rfl

/-! ### STEPs over a memory of zeros (R90, R122) -/

theorem State.pcNext_even {s : State} (heven : s.pc.toNat % 2 = 0) : s.pcNext.toNat % 2 = 0 := by
  rw [State.pcNext_toNat]; omega

section ZeroMemory

variable {s : State} (hzero : ∀ a, s.byte a = 0x00#8) (heven : s.pc.toNat % 2 = 0)
include hzero heven

/-- The fetched word is 0x0000, for an even PC is not 0xFFF; NOP0 only advances. -/
theorem stepWith_of_zeroMemory (p : Params) : stepWith p s = .next s.clearNotice.advance := by
  have hpc : s.pc ≠ 0xFFF#12 := fun h => by rw [h] at heven; cases heven
  have hword : s.mem.readWord s.pc = encode .nop0 := congrArg₂ wordOfBytes (hzero s.pc) (hzero (s.pc + 1))
  have hfetch : fetch s = .ok (encode .nop0) := hword ▸ fetch_of_ne hpc
  have hdecode : decodeWord p (encode .nop0) = .nop0 := decodeWord_encode rfl
  have hrefuses : ¬refuses p .nop0 = true := fun h => by cases ((refuses_iff p _).1 h).2
  rw [stepWith_of_fetch_ok hfetch, hdecode, if_neg hrefuses]
  rfl

/-- STEP by STEP: each answers OK and adds 2 to PC. -/
theorem runRequests_of_zeroMemory (p : Params) (n : Nat) : ∃ t,
    runRequests p s (List.replicate n .step) = .ok (t, List.replicate n .ok) ∧
    SameCore t (s.setPc (BitVec.ofNat 12 (s.pc.toNat + 2 * n))) := by
  induction n generalizing s with
  | zero => exact ⟨s, rfl, by simp [SameCore, State.setPc]⟩
  | succ n ih =>
    have hstep := transact_step_of_next (stepWith_of_zeroMemory hzero heven p)
    obtain ⟨t, hrun, hcore⟩ := ih (s := s.clearNotice.advance) hzero (State.pcNext_even heven)
    refine ⟨t, ?_, hcore.trans ?_⟩
    · rw [List.replicate_succ, runRequests_cons_ok hstep, hrun]
      rfl
    · have hpc : BitVec.ofNat 12 (s.pcNext.toNat + 2 * n) = BitVec.ofNat 12 (s.pc.toNat + 2 * (n + 1)) := by
        apply BitVec.eq_of_toNat_eq
        rw [BitVec.toNat_ofNat, BitVec.toNat_ofNat, State.pcNext_toNat]
        omega
      exact congrArg (fun a => (s.setPc a).clearNotice) hpc

end ZeroMemory

/-- Settles O60: a STEP is one advance of PC, which keeps memory zero and PC even, and so is every one after it. -/
theorem zeroMemoryStepsAreNop0 : Obligations.ZeroMemoryStepsAreNop0 := by
  refine ⟨fun p s hzero heven => ?_, fun p s n hzero heven => runRequests_of_zeroMemory hzero heven p n,
    State.reset_byte, rfl⟩
  exact ⟨_, stepWith_of_zeroMemory hzero heven p, s.pcNext_toNat, keepsAllBut_advance [] _, hzero,
    State.pcNext_even heven⟩

/-! ### OBSERVE (R80) -/

/-- `obs_sp` has room for the 17 depths (R79). -/
theorem depth_eq_of_obsSp_eq {d e : Fin 17} (h : BitVec.ofNat 5 d.val = BitVec.ofNat 5 e.val) : d = e := by
  have hnat := congrArg BitVec.toNat h
  rw [BitVec.toNat_ofNat, BitVec.toNat_ofNat] at hnat
  omega

/-- Settles O12: each field is an output, SP as its depth, and memory byte by byte. -/
theorem observeDeterminesTheState : Obligations.ObserveDeterminesTheState := by
  intro s t hs ht h
  have hdepth : s.depth = t.depth := depth_eq_of_obsSp_eq (congrArg Outputs.obsSp (h 0))
  have hmem : s.mem = t.mem := Memory.eq_of_read hs ht fun a => congrArg Outputs.obsMemData (h a)
  have hv : s.v = t.v := congrArg Outputs.obsV (h 0)
  have hpc : s.pc = t.pc := congrArg Outputs.obsPc (h 0)
  have hi : s.i = t.i := congrArg Outputs.obsI (h 0)
  have hstack : s.stack = t.stack := congrArg Outputs.obsStack (h 0)
  have hnotice : s.notice = t.notice := congrArg Outputs.delegWord (h 0)
  cases s
  cases t
  exact (State.mk.injEq ..).mpr ⟨hv, hpc, hi, hstack, hdepth, hmem, hnotice⟩

end Sys2Proof.Machine

/-! ## Proofs: the family of spec/41_control_flow.md

The words of the family; the jumps and skips, which only give PC a value; CALL and RETURN by what the stack answers; then
the errors of a STEP, which are the fetch's and the stack's. -/

namespace Sys2Proof

/-! ### The words of control flow (R93 to R101) -/

theorem decodeWord_family1 (p : Params) {w : Word} (h : fieldOp w = 0x1#4) : decodeWord p w = .jump (fieldNNN w) := by
  simp only [decodeWord, h]

theorem decodeWord_family2 (p : Params) {w : Word} (h : fieldOp w = 0x2#4) : decodeWord p w = .call (fieldNNN w) := by
  simp only [decodeWord, h]

theorem decodeWord_family3 (p : Params) {w : Word} (h : fieldOp w = 0x3#4) :
    decodeWord p w = .skipIfEq (fieldX w) (fieldNN w) := by simp only [decodeWord, h]

theorem decodeWord_family4 (p : Params) {w : Word} (h : fieldOp w = 0x4#4) :
    decodeWord p w = .skipIfNeq (fieldX w) (fieldNN w) := by simp only [decodeWord, h]

theorem decodeWord_familyB (p : Params) {w : Word} (h : fieldOp w = 0xB#4) :
    decodeWord p w = .jumpOffset (fieldNNN w) := by simp only [decodeWord, h]

/-- A low nibble that does not make a register skip unrecognized (D5). -/
theorem fieldN_eq_zero_or_not_strict {p : Params} {w : Word} (h : ¬(p.strictSkipRegDecode = true ∧ fieldN w ≠ 0x0#4)) :
    fieldN w = 0x0#4 ∨ p.strictSkipRegDecode = false := by
  rw [not_and, not_not] at h
  cases hp : p.strictSkipRegDecode with
  | false => exact .inr rfl
  | true => exact .inl (h hp)

end Sys2Proof

namespace Sys2Proof.Machine

/-! ### Memory by its bytes, and the depth by SP -/

theorem State.byte_of_mem_eq {s t : State} (h : t.mem = s.mem) (a : Addr) : t.byte a = s.byte a := by
  rw [State.byte, State.byte, h]

theorem State.depth_of_sp_eq {s t : State} (h : t.sp = s.sp) : t.depth = s.depth := by
  unfold State.sp at h
  omega

/-- Where the stack holds an entry, a nibble is SP. -/
theorem State.exists_nibble_eq_sp {s : State} (h : -1 < s.sp) : ∃ k : Nibble, (k.toNat : Int) = s.sp := by
  obtain ⟨k, -, -, hk, -⟩ := pop_of_sp_ne h.ne'
  exact ⟨k, hk⟩

/-! ### Jumps (R93, R101) -/

/-- A jump changes nothing but PC. -/
theorem keepsAllBut_setPc (regs : List Nibble) (s : State) (a : Addr) : KeepsAllBut regs s (s.setPc a) :=
  ⟨fun _ _ => rfl, rfl, rfl, fun _ => rfl, fun _ => rfl, rfl⟩

/-- At PC = 0xFFF a STEP fails (R81). -/
theorem stepWith_at_top (p : Params) {s : State} (h : s.pc = 0xFFF#12) : stepWith p s = .fault .outOfBounds :=
  stepWith_of_fetch_error (fetch_at_top h)

/-- Settles O23: JUMP only gives PC its target, so a second one gives it again. -/
theorem jumpGoesToNNN : Obligations.JumpGoesToNNN :=
  ⟨fun p _ h => decodeWord_family1 p h, fun nnn s =>
    ⟨s.setPc nnn, rfl, rfl, keepsAllBut_setPc [] s nnn, fun _ => rfl, fun htop p => stepWith_at_top p htop⟩⟩

/-- Settles O30: the target as a number is the sum modulo 0x1000, and a sum of 0xFFF is within the modulus. -/
theorem jumpOffsetAddsV0 : Obligations.JumpOffsetAddsV0 := by
  refine ⟨fun p _ h => decodeWord_familyB p h, fun nnn s => ?_⟩
  have htarget := operandAPlusV0_toNat nnn s
  refine ⟨s.setPc (operandAPlusV0 nnn s), rfl, htarget, keepsAllBut_setPc [] s _, fun hsum p => ?_⟩
  rw [hsum] at htarget
  exact stepWith_at_top p (BitVec.eq_of_toNat_eq htarget)

/-! ### Skips (R96 to R100) -/

section Skips

variable {i : Instr} {s : State} {c : Bool} {P : Prop} [Decidable P]

/-- A skip taken where `P` holds. -/
theorem exec_skip_pos (hexec : exec i s = .next (s.skipIf c)) (hc : c = true ↔ P) :
    ∃ t, exec i s = .next t ∧ KeepsAllBut [] s t ∧ t.pc.toNat = (s.pc.toNat + if P then 4 else 2) % 0x1000 :=
  ⟨_, hexec, s.skipIf_eq_setPc c ▸ keepsAllBut_setPc [] s _, s.skipIf_pc_toNat hc⟩

/-- A skip taken where `P` fails. -/
theorem exec_skip_neg (hexec : exec i s = .next (s.skipIf c)) (hc : c = true ↔ ¬P) :
    ∃ t, exec i s = .next t ∧ KeepsAllBut [] s t ∧ t.pc.toNat = (s.pc.toNat + if P then 2 else 4) % 0x1000 := by
  have hskip := exec_skip_pos hexec hc
  rwa [ite_not] at hskip

end Skips

/-- Settles O28: both skips test whether `V[X]` is `NN`. -/
theorem immediateSkipsTestForEquality : Obligations.ImmediateSkipsTestForEquality :=
  ⟨fun p _ h => decodeWord_family3 p h, fun p _ h => decodeWord_family4 p h,
    fun _ _ _ => ⟨exec_skip_pos rfl beq_iff_eq, exec_skip_neg rfl bne_iff_ne⟩⟩

/-- Settles O29: both skips test whether `V[X]` is `V[Y]`; the option decides on the low nibble. -/
theorem registerSkipsTestForEquality : Obligations.RegisterSkipsTestForEquality := by
  refine ⟨fun p w h => (decodeWord_family5 p h).trans ?_, fun p w h => (decodeWord_family9 p h).trans ?_,
    fun _ _ _ _ => ⟨exec_skip_pos rfl beq_iff_eq, exec_skip_neg rfl bne_iff_ne⟩⟩
  · split
    · next hstrict => exact decodeFamily5_unrecognized hstrict.symm
    · next hskip => exact decodeFamily5_skip (fieldN_eq_zero_or_not_strict hskip)
  · split
    · next hstrict => exact decodeFamily9_unrecognized hstrict.symm
    · next hskip => exact decodeFamily9_skip (fieldN_eq_zero_or_not_strict hskip)

/-! ### CALL (R94) -/

/-- CALL raises StackOverflow where the stack is full. -/
theorem exec_call_of_sp_eq_fifteen (nnn : Addr) {s : State} (h : s.sp = 15) :
    exec (.call nnn) s = .fault .stackOverflow := by
  rw [exec_call, push_error.2 ⟨rfl, s.sp_eq_fifteen.1 h⟩]
  rfl

/-- CALL completes where the stack has room. -/
theorem exec_call_of_sp_lt (nnn : Addr) {s : State} (h : s.sp < 15) : ∃ t, exec (.call nnn) s = .next t := by
  obtain ⟨u, hu, -⟩ := push_of_sp_ne s.pcNext h.ne
  exact ⟨u.setPc nnn, by rw [exec_call, hu]; rfl⟩

section Call

variable {nnn : Addr} {s t : State} (h : exec (.call nnn) s = .next t)
include h

theorem exec_call_pc : t.pc = nnn := by
  obtain ⟨u, -, rfl⟩ := exec_call_next h
  rfl

theorem exec_call_sp : t.sp = s.sp + 1 := by
  obtain ⟨u, hu, rfl⟩ := exec_call_next h
  obtain ⟨-, hdepth, -⟩ := push_ok hu
  simp only [State.sp, State.setPc_depth, hdepth]
  omega

/-- A CALL that completes leaves an entry. -/
theorem exec_call_lt_sp : -1 < t.sp := by
  rw [exec_call_sp h, State.sp]
  omega

/-- The return address is in the slot the new SP names, and no other slot changes. -/
theorem exec_call_slot (k : Nibble) : t.slot k = if (k.toNat : Int) = t.sp then s.pcNext else s.slot k := by
  obtain ⟨u, hu, rfl⟩ := exec_call_next h
  exact push_ok_slot hu k

theorem exec_call_frame : t.v = s.v ∧ t.i = s.i ∧ t.mem = s.mem ∧ t.notice = s.notice := by
  obtain ⟨u, hu, rfl⟩ := exec_call_next h
  obtain ⟨-, -, -, hv, -, hi, hmem, hnotice⟩ := push_ok hu
  exact ⟨hv, hi, hmem, hnotice⟩

end Call

/-- Settles O24: by what a CALL that completes does, and by the check of `Push`. -/
theorem callPushesTheReturnAddress : Obligations.CallPushesTheReturnAddress := by
  refine ⟨fun p _ h => decodeWord_family2 p h, fun nnn s hroom => ?_, fun nnn s => exec_call_of_sp_eq_fifteen nnn⟩
  obtain ⟨t, hcall⟩ := exec_call_of_sp_lt nnn hroom
  obtain ⟨hv, hi, hmem, hnotice⟩ := exec_call_frame hcall
  exact ⟨t, hcall, exec_call_pc hcall, exec_call_sp hcall, exec_call_slot hcall, State.reg_of_v_eq hv, hi,
    State.byte_of_mem_eq hmem, hnotice⟩

/-! ### RETURN (R95, R36) -/

/-- RETURN raises StackUnderflow where the stack is empty. -/
theorem exec_ret_of_sp_eq_neg_one (x : Nibble) {s : State} (h : s.sp = -1) :
    exec (.ret x) s = .fault .stackUnderflow := by
  rw [exec_ret, pop_error.2 ⟨rfl, s.sp_eq_neg_one.1 h⟩]
  rfl

/-- RETURN completes where the stack has an entry. -/
theorem exec_ret_of_lt_sp (x : Nibble) {s : State} (h : -1 < s.sp) : ∃ t, exec (.ret x) s = .next t := by
  obtain ⟨k, u, hu, -⟩ := pop_of_sp_ne h.ne'
  exact ⟨u.setPc (s.slot k), by rw [exec_ret, hu]; rfl⟩

section Return

variable {x : Nibble} {s t : State} (h : exec (.ret x) s = .next t)
include h

theorem exec_ret_sp : t.sp = s.sp - 1 := by
  obtain ⟨a, u, hu, rfl⟩ := exec_ret_next h
  obtain ⟨d, -, hs, hdepth, -⟩ := pop_ok hu
  simp only [State.sp, State.setPc_depth, hs, hdepth]
  omega

/-- No slot changes, the vacated one neither (D10). -/
theorem exec_ret_slot (k : Nibble) : t.slot k = s.slot k := by
  obtain ⟨a, u, hu, rfl⟩ := exec_ret_next h
  obtain ⟨d, -, -, -, -, hstack, -⟩ := pop_ok hu
  exact State.slot_of_stack_eq hstack k

theorem exec_ret_frame : t.v = s.v ∧ t.i = s.i ∧ t.mem = s.mem ∧ t.notice = s.notice := by
  obtain ⟨a, u, hu, rfl⟩ := exec_ret_next h
  obtain ⟨d, -, -, -, -, -, hv, -, hi, hmem, hnotice⟩ := pop_ok hu
  exact ⟨hv, hi, hmem, hnotice⟩

end Return

/-- Settles O25: by what a RETURN that completes does, and by the check of `Pop`; the word is RETURN's own. -/
theorem returnPopsIntoPc : Obligations.ReturnPopsIntoPc := by
  refine ⟨fun p => decodeWord_encode (i := .ret 0x0#4) rfl, fun x s hentry => ?_,
    fun x s => exec_ret_of_sp_eq_neg_one x⟩
  obtain ⟨t, hret⟩ := exec_ret_of_lt_sp x hentry
  obtain ⟨hv, hi, hmem, hnotice⟩ := exec_ret_frame hret
  exact ⟨t, hret, exec_ret_pc hret, exec_ret_sp hret, exec_ret_slot hret, State.reg_of_v_eq hv, hi,
    State.byte_of_mem_eq hmem, hnotice⟩

/-! ### A CALL and then a RETURN -/

/-- RETURN takes back the address the CALL pushed, and leaves the CALL's one write above SP. -/
theorem exec_ret_after_call {nnn : Addr} {x : Nibble} {s t u : State} (hcall : exec (.call nnn) s = .next t)
    (hret : exec (.ret x) t = .next u) : u.pc = s.pcNext ∧ AgreeBelowSP (s.setPc s.pcNext) u := by
  have hsp : u.sp = s.sp := by
    rw [exec_ret_sp hret, exec_call_sp hcall]
    omega
  have hpc : u.pc = s.pcNext := by
    obtain ⟨k, hk⟩ := State.exists_nibble_eq_sp (exec_call_lt_sp hcall)
    rw [exec_ret_pc hret k hk, exec_call_slot hcall, if_pos hk]
  obtain ⟨hv, hi, hmem, hnotice⟩ := exec_call_frame hcall
  obtain ⟨hv', hi', hmem', hnotice'⟩ := exec_ret_frame hret
  refine ⟨hpc, hv'.trans hv, hpc, hi'.trans hi, State.depth_of_sp_eq hsp, fun k hk => ?_, hmem'.trans hmem,
    hnotice'.trans hnotice⟩
  have hbelow : (k.toNat : Int) ≠ t.sp := by
    rw [exec_call_sp hcall, State.sp]
    rw [State.setPc_depth] at hk
    omega
  rw [exec_ret_slot hret, exec_call_slot hcall, if_neg hbelow]
  rfl

/-- Settles O26: after a CALL the stack has an entry, so the RETURN completes. -/
theorem returnComesBackAfterTheCall : Obligations.ReturnComesBackAfterTheCall := by
  intro nnn x s hroom
  obtain ⟨t, hcall⟩ := exec_call_of_sp_lt nnn hroom
  obtain ⟨u, hret⟩ := exec_ret_of_lt_sp x (exec_call_lt_sp hcall)
  exact ⟨t, u, hcall, hret, exec_ret_after_call hcall hret⟩

/-! ### Seventeen CALLs -/

/-- The state after a CALL; one that fails leaves it as it was (R133). -/
def State.afterCall (nnn : Addr) (s : State) : State :=
  match exec (.call nnn) s with
  | .next t => t
  | .fault _ | .refused _ => s

theorem exec_call_afterCall (nnn : Addr) {s : State} (h : s.sp < 15) :
    exec (.call nnn) s = .next (s.afterCall nnn) := by
  obtain ⟨t, hcall⟩ := exec_call_of_sp_lt nnn h
  rw [State.afterCall, hcall]

/-- The states a sequence of CALLs goes through. -/
def callRun (target : Nat → Addr) (s : State) : Nat → State
  | 0 => s
  | n + 1 => (callRun target s n).afterCall (target n)

section CallRun

variable {target : Nat → Addr} {s : State} (hempty : s.sp = -1)
include hempty

/-- While the stack has room each CALL of the run raises SP by one. -/
theorem callRun_sp {n : Nat} (hn : n ≤ 16) : (callRun target s n).sp = n - 1 := by
  induction n with
  | zero => simpa [callRun] using hempty
  | succ n ih =>
    have hsp := ih (by omega)
    rw [callRun, exec_call_sp (exec_call_afterCall (target n) (by omega)), hsp]
    omega

theorem exec_call_callRun {n : Nat} (hn : n < 16) :
    exec (.call (target n)) (callRun target s n) = .next (callRun target s (n + 1)) :=
  exec_call_afterCall _ (by rw [callRun_sp hempty (by omega)]; omega)

/-- CALL `k` puts its return address in slot `k`, and the CALLs after it push above it. -/
theorem callRun_slot {n : Nat} (hn : n ≤ 16) (k : Nibble) (hk : k.toNat < n) :
    (callRun target s n).slot k = (callRun target s k.toNat).pcNext := by
  induction n with
  | zero => omega
  | succ n ih =>
    rw [exec_call_slot (exec_call_callRun hempty hn), callRun_sp hempty hn]
    by_cases hlast : k.toNat = n
    · rw [if_pos (by omega), hlast]
    · rw [if_neg (by omega), ih (by omega) (by omega)]

end CallRun

/-- Settles O27: SP after n CALLs is n - 1, so sixteen have room and the seventeenth has none. -/
theorem seventeenthCallOverflows : Obligations.SeventeenthCallOverflows := fun target s hempty =>
  ⟨callRun target s, rfl, fun _ hk => exec_call_callRun hempty hk, fun k => callRun_slot hempty le_rfl k k.isLt,
    exec_call_of_sp_eq_fifteen _ (callRun_sp hempty le_rfl)⟩

/-! ### The errors (R131) -/

/-- The one error of a fetch (R81). -/
theorem fetch_error {s : State} {e : Fault} : fetch s = .error e ↔ s.pc = 0xFFF#12 ∧ e = .outOfBounds := by
  by_cases htop : s.pc = 0xFFF#12
  · simp [fetch_at_top htop, htop, eq_comm]
  · simp [fetch_of_ne htop, htop]

/-- The errors of an instruction are those of CALL and RETURN (R94, R95). -/
theorem exec_fault_iff {i : Instr} {s : State} {e : Fault} : exec i s = .fault e ↔
    (∃ nnn, i = .call nnn ∧ s.sp = 15 ∧ e = .stackOverflow) ∨ (∃ x, i = .ret x ∧ s.sp = -1 ∧ e = .stackUnderflow) := by
  constructor
  · intro h
    rcases exec_fault h with ⟨nnn, hi, hpush⟩ | ⟨x, hi, hpop⟩
    · obtain ⟨he, hfull⟩ := push_error.1 hpush
      exact .inl ⟨nnn, hi, s.sp_eq_fifteen.2 hfull, he⟩
    · obtain ⟨he, hempty⟩ := pop_error.1 hpop
      exact .inr ⟨x, hi, s.sp_eq_neg_one.2 hempty, he⟩
  · rintro (⟨nnn, rfl, hfull, rfl⟩ | ⟨x, rfl, hempty, rfl⟩)
    · exact exec_call_of_sp_eq_fifteen nnn hfull
    · exact exec_ret_of_sp_eq_neg_one x hempty

/-- An instruction that raises an error is not refused, for a delegated one completes (R92, R127). -/
theorem refuses_of_exec_fault {i : Instr} {s : State} {e : Fault} (h : exec i s = .fault e) (p : Params) :
    ¬refuses p i = true := by
  intro hrefuses
  obtain ⟨-, hdelegated⟩ := (refuses_iff p i).1 hrefuses
  rw [exec_of_isDelegated hdelegated] at h
  cases h

/-- A STEP's error is its fetch's or its instruction's. -/
theorem stepWith_fault_iff {p : Params} {s : State} {e : Fault} : stepWith p s = .fault e ↔
    fetch s = .error e ∨ ∃ w, fetch s = .ok w ∧ exec (decodeWord p w) s.clearNotice = .fault e := by
  constructor
  · intro h
    rcases stepWith_fault h with hfetch | ⟨w, hfetch, -, hexec⟩
    · exact .inl hfetch
    · exact .inr ⟨w, hfetch, hexec⟩
  · rintro (hfetch | ⟨w, hfetch, hexec⟩)
    · exact stepWith_of_fetch_error hfetch
    · rw [stepWith_of_fetch_ok hfetch, if_neg (refuses_of_exec_fault hexec p), hexec]

/-- The one error of a LOAD (R149). -/
theorem load_error {bytes : List Byte} {s : State} {e : Fault} :
    load bytes s = .error e ↔ 0x200 + bytes.length > 4096 ∧ e = .outOfBounds := by
  have hsize : programStart.toNat + bytes.length > memorySize ↔ 0x200 + bytes.length > 4096 := Iff.rfl
  unfold load
  split
  · next hlong => simp [hsize.1 hlong, eq_comm]
  · next hfits => simp [mt hsize.2 hfits]

/-- Settles O17: a STEP's errors are those of its fetch and of its instruction, a LOAD has its bound, a RESET none. -/
theorem errorsAreExactlyThese : Obligations.ErrorsAreExactlyThese := by
  refine ⟨fun p s e => ?_, fun s bytes e => load_error, fun p s => ⟨_, rfl⟩⟩
  rw [stepWith_fault_iff, fetch_error]
  exact or_congr_right (exists_congr fun w => and_congr_right fun _ => exec_fault_iff)

end Sys2Proof.Machine

/-! ## Proofs: the family of spec/42_alu.md

The words of the family; the ALU's table, an operation at a time; what the step of an ALU instruction does with the
ALU's answer; then an instruction is its step with its row of the table. -/

namespace Sys2Proof

/-! ### The words of the ALU (R107 to R117) -/

theorem decodeWord_family6 (p : Params) {w : Word} (h : fieldOp w = 0x6#4) :
    decodeWord p w = .loadImm (fieldX w) (fieldNN w) := by simp only [decodeWord, h]

theorem decodeWord_family7 (p : Params) {w : Word} (h : fieldOp w = 0x7#4) :
    decodeWord p w = .addImm (fieldX w) (fieldNN w) := by simp only [decodeWord, h]

/-- A word of family 0x8 decodes to the instruction of form RR that has its `X`, `Y` and `N` (R69). -/
theorem decodeWord_of_encode_eq_wordRR {p : Params} {w : Word} {n : Nibble} {i : Instr} (hwf : i.wellFormed p = true)
    (hi : encode i = wordRR 0x8#4 (fieldX w) (fieldY w) n) (hop : fieldOp w = 0x8#4) (hn : fieldN w = n) :
    decodeWord p w = i :=
  ReadsBack.decodeWord_eq ⟨hwf, hi.trans (wordRR_of_fields hop hn)⟩

end Sys2Proof

namespace Sys2Proof.Machine

/-! ### The ALU's table as numbers (R105, R106)

A row says what the ALU answers: a result, and a flag or none. -/

section Table

variable (a b : Byte)

/-- A flag is the same number as a bit and as the byte `VF` holds (R30). -/
theorem flag_setWidth_toNat (f : Flag) : (f.setWidth 8).toNat = f.toNat := BitVec.toNat_setWidth_of_le (by decide)

/-- A difference of bytes is modulo 256, whichever is greater (R106). -/
theorem byte_sub_toNat : ((a - b).toNat : Int) = ((a.toNat : Int) - b.toNat) % 256 := by
  rw [BitVec.toNat_sub]; omega

theorem byte_shiftRight_one_toNat : (a >>> 1).toNat = a.toNat / 2 :=
  (BitVec.toNat_ushiftRight a 1).trans (Nat.shiftRight_one _)

theorem byte_shiftLeft_one_toNat : (a <<< 1).toNat = a.toNat * 2 % 256 :=
  BitVec.toNat_shiftLeft.trans (congrArg (· % 256) (Nat.shiftLeft_eq _ 1))

theorem alu_addi : ∃ r, alu .addi a b = (r, none) ∧ r.toNat = (a.toNat + b.toNat) % 256 :=
  ⟨_, rfl, BitVec.toNat_add a b⟩

theorem alu_or : ∃ r, alu .or a b = (r, none) ∧ r.toNat = a.toNat ||| b.toNat := ⟨_, rfl, BitVec.toNat_or a b⟩

theorem alu_and : ∃ r, alu .and a b = (r, none) ∧ r.toNat = a.toNat &&& b.toNat := ⟨_, rfl, BitVec.toNat_and a b⟩

theorem alu_xor : ∃ r, alu .xor a b = (r, none) ∧ r.toNat = a.toNat ^^^ b.toNat := ⟨_, rfl, BitVec.toNat_xor a b⟩

theorem alu_add : ∃ r f, alu .add a b = (r, some f) ∧ r.toNat = (a.toNat + b.toNat) % 256 ∧
    f.toNat = if a.toNat + b.toNat > 255 then 1 else 0 :=
  ⟨_, _, rfl, BitVec.toNat_add a b, (flag_setWidth_toNat _).symm.trans (carryFlag_toNat a b)⟩

theorem alu_sub : ∃ r f, alu .sub a b = (r, some f) ∧ (r.toNat : Int) = ((a.toNat : Int) - b.toNat) % 256 ∧
    f.toNat = if a.toNat > b.toNat then 1 else 0 :=
  ⟨_, _, rfl, byte_sub_toNat a b, (flag_setWidth_toNat _).symm.trans (greaterFlag_toNat a b)⟩

theorem alu_shr : ∃ r f, alu .shr a b = (r, some f) ∧ r.toNat = a.toNat / 2 ∧ f.toNat = a.toNat % 2 :=
  ⟨_, _, rfl, byte_shiftRight_one_toNat a, (flag_setWidth_toNat _).symm.trans (lowBitFlag_toNat a)⟩

theorem alu_subn : ∃ r f, alu .subn a b = (r, some f) ∧ (r.toNat : Int) = ((b.toNat : Int) - a.toNat) % 256 ∧
    f.toNat = if b.toNat > a.toNat then 1 else 0 := alu_sub b a

theorem alu_shl : ∃ r f, alu .shl a b = (r, some f) ∧ r.toNat = a.toNat * 2 % 256 ∧ f.toNat = a.toNat / 128 :=
  ⟨_, _, rfl, byte_shiftLeft_one_toNat a, (flag_setWidth_toNat _).symm.trans (highBitFlag_toNat a)⟩

end Table

/-- Settles O33, row by row; what is left of a byte above its bit 7 is that bit. -/
theorem aluTable : Obligations.AluTable := by
  intro a b
  have htop : a.toNat / 128 % 2 = a.toNat / 128 := by have := a.isLt; omega
  exact ⟨rfl, alu_addi a b, alu_or a b, alu_and a b, alu_xor a b, alu_add a b, alu_sub a b, alu_shr a b, alu_subn a b,
    htop.symm ▸ alu_shl a b⟩

/-! ### The step of an ALU instruction (R105) -/

/-- An ALU step changes PC, `V[X]`, and `VF` where there is a flag. -/
theorem keepsAllBut_aluStep (op : AluOp) (x : Nibble) (ab : Byte × Byte) (s : State) :
    KeepsAllBut (writeBackRegs x (alu op ab.1 ab.2).2) s (aluStep op x ab s) :=
  ⟨fun _ hr => s.writeBack_reg_of_notMem hr, aluStep_i .., aluStep_depth .., aluStep_slot op x ab s,
    aluStep_byte op x ab s, aluStep_notice ..⟩

section Step

variable {i : Instr} {op : AluOp} {x : Nibble} {a b r : Byte} {f : Flag} {s : State} {R : Byte → Prop} {n : Nat}

theorem aluStep_result_of_noFlag (halu : alu op a b = (r, none)) : (aluStep op x (a, b) s).reg x = r := by
  simp [aluStep_reg_noFlag (ab := (a, b)) (congrArg Prod.snd halu), halu]

/-- The result is left in `V[X]` where the flag does not overwrite it (R119). -/
theorem aluStep_result_of_flag (halu : alu op a b = (r, some f)) (hx : x ≠ flagReg) :
    (aluStep op x (a, b) s).reg x = r := by
  simp [aluStep_reg_flag (ab := (a, b)) (congrArg Prod.snd halu), halu, hx]

/-- An instruction whose operation gives no flag: `R` is what its row says of the result. -/
theorem exec_alu_noFlag (hexec : exec i s = .next (aluStep op x (a, b) s)) (halu : ∃ r, alu op a b = (r, none) ∧ R r) :
    ∃ t, exec i s = .next t ∧ R (t.reg x) ∧ t.pc = s.pcNext ∧ KeepsAllBut [x] s t := by
  obtain ⟨r, halu, hr⟩ := halu
  have hkeeps := keepsAllBut_aluStep op x (a, b) s
  rw [halu] at hkeeps
  exact ⟨_, hexec, (aluStep_result_of_noFlag halu).symm ▸ hr, aluStep_pc .., hkeeps⟩

/-- An instruction whose operation gives a flag, the number `n`; with `X = 0xF` the flag alone is left (R119). -/
theorem exec_alu_flag (hexec : exec i s = .next (aluStep op x (a, b) s))
    (halu : ∃ r f, alu op a b = (r, some f) ∧ R r ∧ f.toNat = n) :
    ∃ t, exec i s = .next t ∧ (x ≠ 0xF#4 → R (t.reg x)) ∧ (t.reg 0xF#4).toNat = n ∧ t.pc = s.pcNext ∧
      KeepsAllBut [x, 0xF#4] s t := by
  obtain ⟨r, f, halu, hr, hf⟩ := halu
  have hkeeps := keepsAllBut_aluStep op x (a, b) s
  have hflag := aluStep_flagReg (ab := (a, b)) (congrArg Prod.snd halu) x s
  rw [halu] at hkeeps
  refine ⟨_, hexec, fun hx => (aluStep_result_of_flag halu hx).symm ▸ hr, ?_, aluStep_pc .., hkeeps⟩
  rw [hflag, flag_setWidth_toNat, hf]

end Step

/-! ### The instructions (R107 to R117) -/

/-- Settles O34: `pass` gives its second operand. -/
theorem loadImmWritesNN : Obligations.LoadImmWritesNN :=
  ⟨fun p _ h => decodeWord_family6 p h, fun _ nn _ => exec_alu_noFlag (R := (· = nn)) rfl ⟨nn, rfl, rfl⟩⟩

/-- Settles O35, by the row of `addi`. -/
theorem addImmAddsModulo256 : Obligations.AddImmAddsModulo256 :=
  ⟨fun p _ h => decodeWord_family7 p h, fun _ _ _ => exec_alu_noFlag rfl (alu_addi _ _)⟩

/-- Settles O36: `pass` gives its second operand. -/
theorem copyCopiesVY : Obligations.CopyCopiesVY :=
  ⟨fun _ _ => decodeWord_of_encode_eq_wordRR rfl rfl,
    fun _ y s => exec_alu_noFlag (R := (· = s.reg y)) rfl ⟨s.reg y, rfl, rfl⟩⟩

/-- Settles O37, by the row of `or`. -/
theorem orCombinesBits : Obligations.OrCombinesBits :=
  ⟨fun _ _ => decodeWord_of_encode_eq_wordRR rfl rfl, fun _ _ _ => exec_alu_noFlag rfl (alu_or _ _)⟩

/-- Settles O38, by the row of `and`. -/
theorem andCombinesBits : Obligations.AndCombinesBits :=
  ⟨fun _ _ => decodeWord_of_encode_eq_wordRR rfl rfl, fun _ _ _ => exec_alu_noFlag rfl (alu_and _ _)⟩

/-- Settles O39, by the row of `xor`. -/
theorem xorCombinesBits : Obligations.XorCombinesBits :=
  ⟨fun _ _ => decodeWord_of_encode_eq_wordRR rfl rfl, fun _ _ _ => exec_alu_noFlag rfl (alu_xor _ _)⟩

/-- Settles O40, by the row of `add`. -/
theorem addSetsTheCarry : Obligations.AddSetsTheCarry :=
  ⟨fun _ _ => decodeWord_of_encode_eq_wordRR rfl rfl, fun _ _ _ => exec_alu_flag rfl (alu_add _ _)⟩

/-- Settles O41, by the row of `sub`. -/
theorem subSetsGreater : Obligations.SubSetsGreater :=
  ⟨fun _ _ => decodeWord_of_encode_eq_wordRR rfl rfl, fun _ _ _ => exec_alu_flag rfl (alu_sub _ _)⟩

/-- Settles O42, by the row of `shr`. -/
theorem shrShiftsOutBitZero : Obligations.ShrShiftsOutBitZero :=
  ⟨fun _ _ => decodeWord_of_encode_eq_wordRR rfl rfl, fun _ _ _ => exec_alu_flag rfl (alu_shr _ _)⟩

/-- Settles O43, by the row of `subn`. -/
theorem subnSetsGreater : Obligations.SubnSetsGreater :=
  ⟨fun _ _ => decodeWord_of_encode_eq_wordRR rfl rfl, fun _ _ _ => exec_alu_flag rfl (alu_subn _ _)⟩

/-- Settles O44, by the row of `shl`. -/
theorem shlShiftsOutBitSeven : Obligations.ShlShiftsOutBitSeven :=
  ⟨fun _ _ => decodeWord_of_encode_eq_wordRR rfl rfl, fun _ _ _ => exec_alu_flag rfl (alu_shl _ _)⟩

/-! ### One register in two roles (R118 to R120) -/

/-- Equal operands are not greater than each other (C3). -/
theorem greaterFlag_self (a : Byte) : greaterFlag a a = 0#1 := by simp [greaterFlag]

/-- A result 0 with a flag 0 leaves 0 in `V[X]` and in `VF`, `X = 0xF` or not. -/
theorem aluStep_zero_zero {op : AluOp} {a b : Byte} (halu : alu op a b = (0x00#8, some 0#1)) (x : Nibble) (s : State) :
    (aluStep op x (a, b) s).reg x = 0x00#8 ∧ (aluStep op x (a, b) s).reg 0xF#4 = 0x00#8 := by
  have hflag := aluStep_flagReg (ab := (a, b)) (congrArg Prod.snd halu) x s
  by_cases hx : x = flagReg
  · subst hx; exact ⟨hflag, hflag⟩
  · exact ⟨aluStep_result_of_flag halu hx, hflag⟩

/-- Settles O45: an operation on equal operands keeps, clears or doubles them, or gives 0 with flag 0. -/
theorem sameRegisterTwice : Obligations.SameRegisterTwice := by
  intro x s
  have hsub : alu .sub (s.reg x) (s.reg x) = (0x00#8, some 0#1) := by simp [alu, greaterFlag_self]
  have hsubn : alu .subn (s.reg x) (s.reg x) = (0x00#8, some 0#1) := hsub
  obtain ⟨-, hadd⟩ := addSetsTheCarry
  refine ⟨⟨_, rfl, aluStep_result_of_noFlag rfl⟩, ⟨_, rfl, ?_⟩, ⟨_, rfl, ?_⟩, ⟨_, rfl, ?_⟩, ?_,
    ⟨_, rfl, aluStep_zero_zero hsub x s⟩, ⟨_, rfl, aluStep_zero_zero hsubn x s⟩⟩
  · exact (aluStep_result_of_noFlag rfl).trans BitVec.or_self
  · exact (aluStep_result_of_noFlag rfl).trans BitVec.and_self
  · exact (aluStep_result_of_noFlag rfl).trans BitVec.xor_self
  · obtain ⟨t, hexec, hsum, hcarry, -, -⟩ := hadd x x s
    have hlt := (s.reg x).isLt
    refine ⟨t, hexec, fun hx => ?_, ?_⟩
    · rw [hsum hx, two_mul]
    · rw [hcarry]; split <;> omega

/-- Settles O46: a flag is the last write, and without one the result is. -/
theorem flagOverwriteWinsInVF : Obligations.FlagOverwriteWinsInVF := by
  intro y nn s
  refine ⟨fun i op hmem => ?_, fun i op b hmem => ?_⟩
  · simp only [List.mem_cons, Prod.mk.injEq, List.not_mem_nil, or_false] at hmem
    rcases hmem with ⟨rfl, rfl⟩ | ⟨rfl, rfl⟩ | ⟨rfl, rfl⟩ | ⟨rfl, rfl⟩ | ⟨rfl, rfl⟩ <;>
      exact ⟨_, _, rfl, rfl, aluStep_flagReg rfl _ s⟩
  · simp only [List.mem_cons, Prod.mk.injEq, List.not_mem_nil, or_false] at hmem
    rcases hmem with ⟨rfl, rfl, rfl⟩ | ⟨rfl, rfl, rfl⟩ | ⟨rfl, rfl, rfl⟩ | ⟨rfl, rfl, rfl⟩ | ⟨rfl, rfl, rfl⟩ |
        ⟨rfl, rfl, rfl⟩ <;>
      exact ⟨_, rfl, aluStep_result_of_noFlag rfl⟩

/-- A byte shifted right and back has lost its bit 0. -/
theorem byte_and_FE (a : Byte) : a &&& 0xFE#8 = a >>> 1 <<< 1 := by
  have hmask : BitVec.allOnes 8 <<< 1 = 0xFE#8 := by decide
  rw [BitVec.shiftLeft_ushiftRight, hmask]

/-- Settles O47: what SHR leaves in a register is below 128, so SHL shifts no bit out. -/
theorem shiftRoundTripLosesBitZero : Obligations.ShiftRoundTripLosesBitZero := by
  intro x y z s
  obtain ⟨-, hshr⟩ := shrShiftsOutBitZero
  obtain ⟨-, hshl⟩ := shlShiftsOutBitSeven
  obtain ⟨t, ht, htx, htf, -, -⟩ := hshr x y s
  obtain ⟨u, hu, hux, huf, -, -⟩ := hshl x z t
  have hlow : (t.reg x).toNat < 128 := by
    by_cases hx : x = 0xF#4
    · subst hx; omega
    · have := htx hx; have := (s.reg x).isLt; omega
  refine ⟨t, u, ht, hu, BitVec.eq_of_toNat_eq ?_, BitVec.eq_of_toNat_eq ?_, fun hx => BitVec.eq_of_toNat_eq ?_⟩
  · rw [htf, BitVec.toNat_and]; exact (Nat.and_one_is_mod _).symm
  · rw [huf]; exact Nat.div_eq_of_lt hlow
  · rw [hux hx, htx hx, byte_and_FE, byte_shiftLeft_one_toNat, byte_shiftRight_one_toNat]

end Sys2Proof.Machine

/-! ## Proofs: the family of spec/43_misc_and_delegated.md

The words of LOAD-I and of NOP0; then what is left of a state by LOAD-I, NOP0 and a delegated instruction. -/

namespace Sys2Proof

theorem decodeWord_familyA (p : Params) {w : Word} (h : fieldOp w = 0xA#4) : decodeWord p w = .loadI (fieldNNN w) := by
  simp only [decodeWord, h]

end Sys2Proof

namespace Sys2Proof.Machine

/-! ### The address register (R125) -/

theorem exec_loadI (nnn : Addr) (s : State) : exec (.loadI nnn) s = .next (s.setI nnn).advance := rfl

/-- Settles O48: LOAD-I is a write of I and then the default PC effect; by the laws of these two updates neither touches
anything else. -/
theorem loadIWritesNNN : Obligations.LoadIWritesNNN := by
  refine ⟨fun p _ h => decodeWord_familyA p h, fun nnn s =>
    ⟨(s.setI nnn).advance, exec_loadI nnn s, ?_⟩⟩
  simp

/-! ### NOP0 (R122) -/

theorem exec_nop0 (s : State) : exec .nop0 s = .next s.advance := rfl

/-- Settles O49: 0x0000 is NOP0's own word, and NOP0 is the default PC effect alone. -/
theorem nop0OnlyAdvances : Obligations.Nop0OnlyAdvances :=
  ⟨fun _ => decodeWord_encode (i := .nop0) rfl,
    fun s => ⟨s.advance, exec_nop0 s, s.advance_pc, keepsAllBut_advance [] s⟩⟩

/-! ### Delegated words (R121, R126, R127, R130) -/

/-- Beyond the notice, delegating is the default PC effect (R127). -/
theorem State.delegate_clearNotice (s : State) (w : Word) :
    (s.delegate w).clearNotice = s.clearNotice.advance := rfl

/-- Settles O51: every delegated instruction delegates its word, which raises the notice and advances PC. -/
theorem delegatedWordsOnlyRaiseTheNotice : Obligations.DelegatedWordsOnlyRaiseTheNotice := by
  intro i s hdelegated
  refine ⟨s.delegate (encode i), exec_of_isDelegated hdelegated s, s.delegate_pc _, s.delegate_notice _, ?_⟩
  rw [State.delegate_clearNotice]
  exact keepsAllBut_advance [] s.clearNotice

end Sys2Proof.Machine

namespace Sys2Proof.Machine

/-! ### A failed operation (R133) -/

theorem SameCore.refl (s : State) : SameCore s s := rfl

/-- Dropping the notice touches neither V, PC, I, SP, STACK nor M. -/
theorem sameCore_clearNotice (s : State) : SameCore s.clearNotice s := s.clearNotice_clearNotice

/-- Settles O18: of the outcomes a transaction has, only a rejected LOAD and a STEP that ends in an error have a result
other than OK; the first changes nothing and the second drops the notice alone. -/
theorem failedOperationChangesNothing : Obligations.FailedOperationChangesNothing := by
  intro p s t q r h hr
  obtain ⟨-, -, hok⟩ | ⟨_, -, -, hok⟩ | ⟨_, _, -, -, rfl, -⟩ | ⟨-, -, hok⟩ | ⟨_, -, -, rfl, -⟩ := transact_ok h
  · exact absurd hok hr
  · exact absurd hok hr
  · exact .refl t
  · exact absurd hok hr
  · exact sameCore_clearNotice s

end Sys2Proof.Machine

/-! ## Proofs: the family of spec/70_reset_and_hazards.md

A run of bytes written upward in memory, and LOAD by it; then the instructions that leave both PC and SP alone. -/

namespace Sys2Proof.Machine

/-! ### LOAD (R149) -/

namespace Memory

section WriteBytes

variable {m : Memory} (hm : m.wf) {bs : List Byte} {a : Addr} (hfits : a.toNat + bs.length ≤ 4096)
include hm hfits

/-- Bytes written upward from `a` leave every address below and above them alone. -/
theorem read_writeBytes_outside {x : Addr} (hx : x.toNat < a.toNat ∨ a.toNat + bs.length ≤ x.toNat) :
    (m.writeBytes a bs).read x = m.read x := by
  induction bs generalizing m a with
  | nil => rfl
  | cons b bs ih =>
    rw [List.length_cons] at hfits hx
    have hnext : (a + 1).toNat = (a.toNat + 1) % 4096 := BitVec.toNat_add _ _
    have hne : x ≠ a := by rintro rfl; omega
    rw [writeBytes, ih (write_wf hm a b) (by omega) (by omega), read_write hm, if_neg hne]

/-- The byte `k` places above `a` is the `k`-th of the bytes written. -/
theorem read_writeBytes_inside {k : Nat} (hk : k < bs.length) :
    (m.writeBytes a bs).read (BitVec.ofNat 12 (a.toNat + k)) = bs[k] := by
  induction bs generalizing m a k with
  | nil => cases hk
  | cons b bs ih =>
    rw [List.length_cons] at hfits hk
    have hnext : (a + 1).toNat = (a.toNat + 1) % 4096 := BitVec.toNat_add _ _
    have hwf := write_wf hm a b
    have hfits' : (a + 1).toNat + bs.length ≤ 4096 := by omega
    cases k with
    | zero =>
      have haddr : BitVec.ofNat 12 (a.toNat + 0) = a := by simp
      rw [haddr, writeBytes, read_writeBytes_outside hwf hfits' (by omega), read_write hm, if_pos rfl]
      rfl
    | succ k =>
      have haddr : BitVec.ofNat 12 (a.toNat + (k + 1)) = BitVec.ofNat 12 ((a + 1).toNat + k) :=
        BitVec.eq_of_toNat_eq (by rw [BitVec.toNat_ofNat, BitVec.toNat_ofNat]; omega)
      rw [haddr]
      exact ih hwf hfits' (by omega)

end WriteBytes

end Memory

theorem transact_load_of_le (p : Params) (s : State) {bytes : List Byte} (h : 0x200 + bytes.length ≤ 4096) :
    transact p s (.load bytes) = .ok ({ s with mem := s.mem.writeBytes programStart bytes }, .ok) := by
  have hload : load bytes s = .ok { s with mem := s.mem.writeBytes programStart bytes } := if_neg (Nat.not_lt.2 h)
  simp only [transact, hload]

theorem transact_load_of_lt (p : Params) (s : State) {bytes : List Byte} (h : 4096 < 0x200 + bytes.length) :
    transact p s (.load bytes) = .ok (s, .outOfBounds) := by
  have hload : load bytes s = .error .outOfBounds := load_error.2 ⟨h, rfl⟩
  simp only [transact, hload, Result.ofFault]

/-- Settles O9: by what is read in and around a run of bytes written from 0x200, and by LOAD's bound. -/
theorem loadCopiesOrIsRejectedWhole : Obligations.LoadCopiesOrIsRejectedWhole := by
  intro p s bytes hm
  refine ⟨fun hfits => ?_, fun hlong => ⟨s, transact_load_of_lt p s hlong, .refl s⟩⟩
  exact ⟨_, transact_load_of_le p s hfits, fun _ => Memory.read_writeBytes_inside (a := programStart) hm hfits,
    fun _ => Memory.read_writeBytes_outside (a := programStart) hm hfits, fun _ => rfl, rfl, rfl, rfl, fun _ => rfl⟩

/-! ### Fixed points (R157; D23) -/

theorem exec_jump (nnn : Addr) (s : State) : exec (.jump nnn) s = .next (s.setPc nnn) := rfl

theorem exec_jumpOffset (nnn : Addr) (s : State) :
    exec (.jumpOffset nnn) s = .next (s.setPc (operandAPlusV0 nnn s)) := rfl

theorem operandAPlusV0_clearNotice (nnn : Addr) (s : State) :
    operandAPlusV0 nnn s.clearNotice = operandAPlusV0 nnn s := rfl

/-- CALL and RETURN move SP, and every other instruction but the two jumps adds 2 or 4 to PC: to leave both alone is to
jump to PC. -/
theorem exec_jump_of_pc_sp_eq {i : Instr} {s t : State} (h : exec i s = .next t) (hpc : t.pc = s.pc)
    (hsp : t.sp = s.sp) :
    i = .jump s.pc ∨
      ∃ nnn, i = .jumpOffset nnn ∧ ((s.reg 0x0#4).toNat + nnn.toNat) % 0x1000 = s.pc.toNat := by
  have hlt := s.pc.isLt
  have hafter := pcAfterEveryInstruction i s t h
  rw [hpc] at hafter
  cases i with
  | jump nnn => exact .inl (congrArg Instr.jump hafter.symm)
  | jumpOffset nnn => exact .inr ⟨nnn, rfl, hafter.symm⟩
  | call nnn => have := exec_call_sp h; omega
  | ret x => have := exec_ret_sp h; omega
  | skipIfEq _ _ | skipIfNeq _ _ | skipIfRegEq _ _ _ | skipIfRegNeq _ _ _ =>
    dsimp only at hafter
    split at hafter <;> omega
  | _ => dsimp only at hafter; omega

/-- An instruction that is not refused and changes nothing but the notice makes the state a fixed point. -/
theorem fixedPoint_of_exec {p : Params} {s : State} {w : Word} {i : Instr} (hfetch : fetch s = .ok w)
    (hdecode : decodeWord p w = i) (hdelegated : i.isDelegated = false)
    (hexec : exec i s.clearNotice = .next s.clearNotice) : FixedPoint p s := by
  have hrefuses : ¬refuses p i = true := by simp [refuses_iff, hdelegated]
  exact ⟨s.clearNotice, by rw [stepWith_of_fetch_ok hfetch, hdecode, if_neg hrefuses, hexec],
    (sameCore_clearNotice s).symm⟩

/-- Settles O59: a STEP that leaves PC and SP alone ran a jump to PC, and a jump to PC gives PC its own value. -/
theorem fixedPointsAreSelfJumps : Obligations.FixedPointsAreSelfJumps := by
  refine fun p s => ⟨?_, ?_⟩
  · rintro ⟨t, hstep, hcore⟩
    obtain ⟨w, hfetch, -, hexec⟩ := stepWith_next hstep
    have hpc : t.pc = s.pc := (congrArg State.pc hcore).symm
    have hsp : t.sp = s.sp := (congrArg State.sp hcore).symm
    have hword : encode (decodeWord p w) = w := (readsBack_decodeWord p w).encode
    refine ⟨w, hfetch, ?_⟩
    obtain hi | ⟨nnn, hi, hsum⟩ := exec_jump_of_pc_sp_eq hexec hpc hsp
    · rw [hi] at hword
      subst hword
      exact .inl ⟨fieldOp_wordA .., fieldNNN_wordA ..⟩
    · rw [hi] at hword
      subst hword
      exact .inr ⟨fieldOp_wordA .., (fieldNNN_wordA 0xB#4 nnn).symm ▸ hsum⟩
  · rintro ⟨w, hfetch, ⟨hop, htarget⟩ | ⟨hop, hsum⟩⟩
    · refine fixedPoint_of_exec hfetch (decodeWord_family1 p hop) rfl ?_
      rw [exec_jump, htarget]
      rfl
    · have htarget : operandAPlusV0 (fieldNNN w) s = s.pc :=
        BitVec.eq_of_toNat_eq ((operandAPlusV0_toNat _ s).trans hsum)
      refine fixedPoint_of_exec hfetch (decodeWord_familyB p hop) rfl ?_
      rw [exec_jumpOffset, operandAPlusV0_clearNotice, htarget]
      rfl

end Sys2Proof.Machine
